-- ==== Sys2Proof/Word.lean ====
section
/-! DEFINITION. The two widths of the block: the byte and the 16-bit word (00_scope.md R7). -/

namespace Sys2Proof

/-- A byte, "8 bits, a value 0 to 255" (R7). -/
abbrev Byte := BitVec 8

/-- A word, "16 bits, a value 0 to 65535" (R7): a command word, the `data` of a response, the register `crc`. -/
abbrev Word := BitVec 16

end Sys2Proof
end

