-- ==== Sys2Proof/Syntax.lean ====
section
/-! DEFINITION. The thirteen commands of the opcode map (30_encoding.md R35), one constructor per row of
spec/opcode_table.json. -/

namespace Sys2Proof

/-- A command of the block. An operand is the byte `arg` of the command word (R33). -/
inductive Instr where
  /-- `CRC.INIT` (40_crc.md R46) -/
  | crcInit
  /-- `CRC.UPD b` (R47) -/
  | crcUpd (b : Byte)
  /-- `CRC.RD` (R48) -/
  | crcRd
  /-- `SYNC.PUSH b` (41_sync.md R60) -/
  | syncPush (b : Byte)
  /-- `SYNC.SCAN` (R61) -/
  | syncScan
  /-- `SYNC.RDF idx` (R62): `arg[7:6]` must be 0 (WellFormed.lean), `idx = arg[5:0]` -/
  | syncRdf (arg : Byte)
  /-- `SYNC.POP` (R63) -/
  | syncPop
  /-- `RDSR` (42_system.md R69) -/
  | rdsr
  /-- `CLRF` (R70) -/
  | clrf
  /-- `SYNC.RDAL` (41_sync.md R65) -/
  | syncRdal
  /-- `SYNC.RDFC` (R64) -/
  | syncRdfc
  /-- `SYNC.CLR` (R66) -/
  | syncClr
  /-- `RESET` (42_system.md R71) -/
  | reset
deriving DecidableEq, Repr

end Sys2Proof
end

