-- ==== Sys2Proof/WellFormed.lean ====
section
/-! DEFINITION. Which terms of `Instr` some command word carries (30_encoding.md R35, R36, R38). -/

namespace Sys2Proof

/-- The one operand check: the index of `SYNC.RDF` is 0 to 63, that is `arg[7:6] = 0` (R33, R38). The operands of
`CRC.UPD` and `SYNC.PUSH` are "0 to 255" by their type. -/
def Instr.wellFormed : Instr → Bool
  | .syncRdf arg => arg.extractLsb' 6 2 == 0#2
  | .crcInit => true
  | .crcUpd _ => true
  | .crcRd => true
  | .syncPush _ => true
  | .syncScan => true
  | .syncPop => true
  | .rdsr => true
  | .clrf => true
  | .syncRdal => true
  | .syncRdfc => true
  | .syncClr => true
  | .reset => true

end Sys2Proof
end

