-- ==== Sys2Proof/Decode.lean ====
section
/-! DEFINITION. The decoder of 30_encoding.md R33 to R37, total on all 65536 command words and rejecting by name,
and after it the encoder of R38. -/

namespace Sys2Proof

/-- Why a word is reserved (R36 lists the three kinds). All three raise `IllegalCommand`. -/
inductive DecodeError where
  /-- an `op` outside the opcode map -/
  | reservedOp (op : Byte)
  /-- an operand-less command whose `arg` is not 0 -/
  | reservedArg (op arg : Byte)
  /-- `SYNC.RDF` with `arg` 64 to 255 -/
  | reservedIndex (arg : Byte)
deriving DecidableEq, Repr

/-- `op = cmd[15:8]` (R33). -/
def opField (cmd : Word) : Byte := cmd.extractLsb' 8 8

/-- `arg = cmd[7:0]` (R33). -/
def argField (cmd : Word) : Byte := cmd.extractLsb' 0 8

/-- A command that takes no operand: `arg` must be 0 (R35, R36). -/
def decodePlain (op arg : Byte) (i : Instr) : Except DecodeError Instr :=
  if arg = 0#8 then .ok i else .error (.reservedArg op arg)

/-- `SYNC.RDF`: `arg[7:6]` must be 0 (R33, R36). -/
def decodeRdf (arg : Byte) : Except DecodeError Instr :=
  if arg.extractLsb' 6 2 = 0#2 then .ok (.syncRdf arg) else .error (.reservedIndex arg)

/-- Decoding, from the command word alone (R37); the rows are those of R35. -/
def decode (cmd : Word) : Except DecodeError Instr :=
  let op := opField cmd
  let arg := argField cmd
  match op.toNat with
  | 0x01 => decodePlain op arg .crcInit
  | 0x02 => .ok (.crcUpd arg)
  | 0x03 => decodePlain op arg .crcRd
  | 0x10 => .ok (.syncPush arg)
  | 0x11 => decodePlain op arg .syncScan
  | 0x12 => decodeRdf arg
  | 0x13 => decodePlain op arg .syncPop
  | 0x14 => decodePlain op arg .rdsr
  | 0x15 => decodePlain op arg .clrf
  | 0x16 => decodePlain op arg .syncRdal
  | 0x17 => decodePlain op arg .syncRdfc
  | 0x18 => decodePlain op arg .syncClr
  | 0xFF => decodePlain op arg .reset
  | _ => .error (.reservedOp op)

/-- The command word that the low `nbits` bits of `w` are: "every command is one word" of 16 bits (R33), so a
narrower `w` is padded with zero bits and there is no wider one. -/
def tableWord (nbits w : Nat) : Option Word :=
  if nbits ≤ 16 then some (BitVec.ofNat 16 (w % 2 ^ nbits)) else none

/-- The instruction the decoder reads from a word numbered as spec/opcode_table.json numbers its bits. -/
def decodeTableWord (nbits w : Nat) : Option Instr :=
  match tableWord nbits w with
  | none => none
  | some cmd =>
    match decode cmd with
    | .ok i => some i
    | .error _ => none

/-- `op` of each command (R35). -/
def Instr.op : Instr → Byte
  | .crcInit => 0x01
  | .crcUpd _ => 0x02
  | .crcRd => 0x03
  | .syncPush _ => 0x10
  | .syncScan => 0x11
  | .syncRdf _ => 0x12
  | .syncPop => 0x13
  | .rdsr => 0x14
  | .clrf => 0x15
  | .syncRdal => 0x16
  | .syncRdfc => 0x17
  | .syncClr => 0x18
  | .reset => 0xFF

/-- The operand, "0 when there is none" (R38). -/
def Instr.operand : Instr → Byte
  | .crcUpd b => b
  | .syncPush b => b
  | .syncRdf arg => arg
  | .crcInit => 0
  | .crcRd => 0
  | .syncScan => 0
  | .syncPop => 0
  | .rdsr => 0
  | .clrf => 0
  | .syncRdal => 0
  | .syncRdfc => 0
  | .syncClr => 0
  | .reset => 0

/-- "The encoding is `cmd = op * 256 + operand`" (R38). -/
def encode (i : Instr) : Word :=
  BitVec.ofNat 16 (i.op.toNat * 256 + i.operand.toNat)

/-- The column `mask` of R35. -/
def Instr.mask : Instr → Word
  | .crcUpd _ => 0xFF00
  | .syncPush _ => 0xFF00
  | .syncRdf _ => 0xFFC0
  | .crcInit => 0xFFFF
  | .crcRd => 0xFFFF
  | .syncScan => 0xFFFF
  | .syncPop => 0xFFFF
  | .rdsr => 0xFFFF
  | .clrf => 0xFFFF
  | .syncRdal => 0xFFFF
  | .syncRdfc => 0xFFFF
  | .syncClr => 0xFFFF
  | .reset => 0xFFFF

/-- The column `match` of R35. -/
def Instr.pattern : Instr → Word
  | .crcInit => 0x0100
  | .crcUpd _ => 0x0200
  | .crcRd => 0x0300
  | .syncPush _ => 0x1000
  | .syncScan => 0x1100
  | .syncRdf _ => 0x1200
  | .syncPop => 0x1300
  | .rdsr => 0x1400
  | .clrf => 0x1500
  | .syncRdal => 0x1600
  | .syncRdfc => 0x1700
  | .syncClr => 0x1800
  | .reset => 0xFF00

end Sys2Proof
end

