-- ==== Sys2Proof/Machine/Constants.lean ====
section
/-! DEFINITION. The numbers the source fixes (00_scope.md R3), each named once, and the two least capacities
of R4. UNVERIFIED against the repository's code, unsafe: log entry 8. -/

namespace Sys2Proof.Constants

/-- `FRAME_LEN`: bytes in a frame. -/
abbrev frameLen : Nat := 64

/-- `MARKER`: the start marker. -/
def marker : List Byte := [0x01, 0x02, 0x03, 0x04]

/-- `MARKER_LEN`: bytes in the marker. -/
abbrev markerLen : Nat := 4

/-- `PAYLOAD_LEN`: bytes of payload. -/
abbrev payloadLen : Nat := 55

/-- `CK_FIRST`: the first frame byte the checksum covers. -/
abbrev ckFirst : Nat := 4

/-- `CK_LAST`: the last frame byte the checksum covers. -/
abbrev ckLast : Nat := 61

/-- `CK_HI`: the frame byte holding the checksum's high byte. -/
abbrev ckHi : Nat := 62

/-- `CK_LO`: the frame byte holding the checksum's low byte. -/
abbrev ckLo : Nat := 63

/-- `CRC_INIT`: the register at the start of a checksum. -/
def crcInitValue : Word := 0xFFFF

/-- `CRC_POLY`: the polynomial XORed in a round. -/
def crcPoly : Word := 0x1021

/-- `CRC_ROUNDS`: rounds per byte. -/
abbrev crcRounds : Nat := 8

/-- `NOMARK_LIMIT`: the length above which a marker-less accumulator loses only its first bytes. -/
abbrev nomarkLimit : Nat := 64

/-- `NOMARK_DROP`: the bytes discarded in that case. -/
abbrev nomarkDrop : Nat := 10

/-- `BAD_DROP`: the bytes dropped after a failed candidate. -/
abbrev badDrop : Nat := 1

/-- The least value R4 allows `ACC_CAP`. -/
abbrev accCapMin : Nat := 128

/-- The least value R4 allows `OUTQ_CAP`. -/
abbrev outqCapMin : Nat := 1

end Sys2Proof.Constants
end

