-- ==== Sys2Proof/Config.lean ====
section
/-! DEFINITION. What an implementation fixes: the two capacities of 00_scope.md R4, which the spec leaves open.
The numbers that are no parameters stand in Machine/Constants.lean. -/

namespace Sys2Proof

/-- "a natural number or `INF`" (R4). -/
inductive Capacity where
  /-- a finite capacity -/
  | finite (n : Nat)
  /-- no bound: the source's own reading -/
  | inf
deriving DecidableEq, Repr, Inhabited

/-- `n + c`, where `n + INF` is `INF`. -/
def Capacity.above (n : Nat) : Capacity → Capacity
  | .finite k => .finite (n + k)
  | .inf => .inf

/-- The two parameters of R4, each held as what it has beyond the least value R4 allows, so that every value of
this type meets R4's constraints and every pair R4 allows is one of its values. -/
structure Capacities where
  /-- `ACC_CAP` less 128 -/
  accSpare : Capacity
  /-- `OUTQ_CAP` less 1 -/
  outqSpare : Capacity
deriving DecidableEq, Repr, Inhabited

/-- `ACC_CAP` (R4). -/
def Capacities.accCap (c : Capacities) : Capacity := c.accSpare.above Constants.accCapMin

/-- `OUTQ_CAP` (R4). -/
def Capacities.outqCap (c : Capacities) : Capacity := c.outqSpare.above Constants.outqCapMin

/-- Both parameters `INF`: the source's unbounded buffers. -/
def Capacities.unbounded : Capacities := ⟨.inf, .inf⟩

/-- The capacities of the implementation at hand. DESIGN CHOICE, safe: R4 leaves them OPEN, so this constant has no
body and no proof can see its value (log entry 3). -/
opaque Config.implemented : Capacities

end Sys2Proof
end

