-- ==== Sys2Proof/Machine/State.lean ====
section
/-! DEFINITION. The state of the block (10_state.md R9 to R16), with the model's own fields for the command port and
the capacities, the reasons a step could stop, and the state after reset. -/

namespace Sys2Proof.Machine

/-- "a sequence of exactly 64 bytes" (10_state.md R9, 30_encoding.md R27); element 0 is the first byte on the wire. -/
abbrev Frame := Vector Byte Constants.frameLen

/-- The response to one command (30_encoding.md R34). -/
structure Response where
  /-- `err`, one bit: `true` is 1, a fault was raised -/
  err : Bool
  /-- `data`, 16 bits: the result, or the fault code -/
  data : Word
deriving DecidableEq, Repr

/-- The state of R9, and below it the model's own fields. -/
structure State where
  /-- The register `crc` (R10). -/
  crc : Word
  /-- The accumulator `acc`, oldest byte first (R11). -/
  acc : List Byte
  /-- The output queue `outq`, oldest frame first (R12). -/
  outq : List Frame
  /-- The status register `SR` (R13). -/
  sr : Byte
  /-- MODEL: `ACC_CAP` and `OUTQ_CAP` (00_scope.md R4), which nothing writes (log entry 3). -/
  caps : Capacities
  /-- MODEL: the command words the host has still to present, next first (00_scope.md R5, log entry 1). -/
  commands : List Word
  /-- MODEL: the responses given so far, oldest first (00_scope.md R6, log entry 2). -/
  responses : List Response
deriving DecidableEq, Repr

/-- Why the machine could stop with a fault: for no reason. "The block is not halted or wedged by a fault"
(60_exceptions.md R73), so the spec's three faults are next states (`BlockFault` in Machine/Ops.lean) and this type
has no constructor. Safe: the model has no stop that the block lacks (log entry 6). -/
inductive Fault where
deriving DecidableEq, Repr

/-- Why a step could be refused. -/
inductive Refusal where
  /-- Raised by an arm of `exec` whose instruction has no meaning yet; no arm raises it now. Safe: nothing is claimed of
  such an instruction. -/
  | notModelled (mnemonic : String)
deriving DecidableEq, Repr

/-- The state after a reset event (10_state.md R16, 70_reset_and_hazards.md R82), with nothing presented and nothing
answered yet, and the capacities left open (log entries 1 to 4). -/
def State.reset : State where
  crc := 0xFFFF
  acc := []
  outq := []
  sr := 0x00
  caps := Config.implemented
  commands := []
  responses := []

end Sys2Proof.Machine
end

