-- ==== Sys2Proof/Machine/Flags.lean ====
section
/-! DEFINITION. The bits of the status register `SR` (10_state.md R13): their places, setting one, reading one, and
clearing the four event flags. -/

namespace Sys2Proof.Machine

/-- The seven named bits of `SR` (R13); bit 7 is reserved. -/
inductive Flag where
  /-- the marker is absent from a non-empty accumulator -/
  | nomark
  /-- the marker is found at an offset above 0 -/
  | resync
  /-- a candidate has a wrong checksum -/
  | badcrc
  /-- a candidate does not begin with the marker; never happens -/
  | badmark
  /-- fault `AccOverflow` -/
  | ovf
  /-- fault `IllegalCommand` -/
  | ill
  /-- fault `QueueEmpty` -/
  | empty
deriving DecidableEq, Repr

/-- The place of a flag in `SR` (R13). -/
def Flag.bit : Flag → Nat
  | .nomark => 0
  | .resync => 1
  | .badcrc => 2
  | .badmark => 3
  | .ovf => 4
  | .ill => 5
  | .empty => 6

/-- `SR[3:0]` are the framing events, `SR[6:4]` the fault record (R13). -/
def Flag.isEvent : Flag → Bool
  | .nomark => true
  | .resync => true
  | .badcrc => true
  | .badmark => true
  | .ovf => false
  | .ill => false
  | .empty => false

/-- A flag of a value of `SR`. -/
def srHas (sr : Byte) (f : Flag) : Bool := sr.getLsbD f.bit

/-- Bit 7 of a value of `SR`, reserved (R13). -/
def srReserved (sr : Byte) : Bool := sr.getLsbD 7

/-- `SR.<f> <- 1`; the other bits stay. -/
def srSet (sr : Byte) (f : Flag) : Byte := sr ||| (1#8 <<< f.bit)

/-- `SR and 0xF0`: the four event flags to 0, the others kept (42_system.md R70). -/
def srClearEvents (sr : Byte) : Byte := sr &&& 0xF0

/-- `SR[6:4] = 0`: no fault is recorded (60_exceptions.md R76). -/
def srNoFault (sr : Byte) : Bool := sr &&& 0x70 == 0

end Sys2Proof.Machine
end

