-- ==== Sys2Proof/Machine/Operands.lean ====
section
/-! DEFINITION. Operand assembly and the widths of results (30_encoding.md R33, R34, R40, 20_memory.md R21). -/

namespace Sys2Proof.Machine

/-- `zext_16` of a byte: `data[15:8] = 0` (R40). -/
def zext16 (b : Byte) : Word := b.setWidth 16

/-- A length in 16 bits: `min(n, 0xFFFF)` (41_sync.md R64, R65). -/
def saturate16 (n : Nat) : Word := BitVec.ofNat 16 (min n 0xFFFF)

/-- The byte index a `SYNC.RDF` operand carries: `idx = arg[5:0]` when `arg[7:6] = 0`, none for the reserved
`arg` 64 to 255 (R33, R36). -/
def frameIndex (arg : Byte) : Option (Fin Constants.frameLen) :=
  if h : arg.toNat < Constants.frameLen then some ⟨arg.toNat, h⟩ else none

end Sys2Proof.Machine
end

