-- ==== Sys2Proof/Machine/Ops.lean ====
section
/-! DEFINITION. The named operations every meaning is made of: responding, raising a fault (the block's whole
exception mechanism), setting a flag, the two storage spaces and their capacities, and reset. -/

namespace Sys2Proof.Machine

/-- `respond(err, data)`: one more response (00_scope.md R7, 30_encoding.md R34). -/
def respond (err : Bool) (data : Word) (s : State) : State :=
  { s with responses := s.responses ++ [⟨err, data⟩] }

/-- `SR.<f> <- 1` (10_state.md R13). -/
def setFlag (f : Flag) (s : State) : State := { s with sr := srSet s.sr f }

/-- The three faults of the block (60_exceptions.md R72). -/
inductive BlockFault where
  /-- the command word is reserved -/
  | illegalCommand
  /-- a push onto a full accumulator -/
  | accOverflow
  /-- a read or a pop with no frame waiting -/
  | queueEmpty
deriving DecidableEq, Repr

/-- The fault code, the `data` of the response (R72). -/
def BlockFault.code : BlockFault → Word
  | .illegalCommand => 1
  | .accOverflow => 2
  | .queueEmpty => 3

/-- The `SR` bit a fault sets (R72). -/
def BlockFault.flag : BlockFault → Flag
  | .illegalCommand => .ill
  | .accOverflow => .ovf
  | .queueEmpty => .empty

/-- `raise F(code)`: set the fault's one `SR` bit and respond `(1, code)`; nothing else changes, and the block goes on
(R73). There is no return from a fault, since none transfers control (R75). -/
def raise (f : BlockFault) (s : State) : State := respond true f.code (setFlag f.flag s)

/-- Whether `n = min + spare`, the capacity `above min spare`; never for `INF`. Written so that a length below the least
capacity is known not to be at the limit without looking at `spare`. -/
def reaches (min : Nat) (spare : Capacity) (n : Nat) : Bool :=
  if n < min then false
  else
    match spare with
    | .finite k => n == min + k
    | .inf => false

/-- `len(acc) = ACC_CAP` (41_sync.md R60). -/
def accFull (s : State) : Bool := reaches Constants.accCapMin s.caps.accSpare s.acc.length

/-- `len(outq) = OUTQ_CAP` (41_sync.md R58). -/
def outqFull (s : State) : Bool := reaches Constants.outqCapMin s.caps.outqSpare s.outq.length

/-- `MemWrite(ACC, len(acc), 1, b)`, which is `acc <- acc ++ [b]` (00_scope.md R7, 20_memory.md R18). -/
def accAppend (b : Byte) (s : State) : State := { s with acc := s.acc ++ [b] }

/-- `acc <- drop(n, acc)`, the only way bytes leave but emptying (20_memory.md R18). -/
def accDrop (n : Nat) (s : State) : State := { s with acc := s.acc.drop n }

/-- `acc <- []`. -/
def accClear (s : State) : State := { s with acc := [] }

/-- `outq <- outq ++ [f]`: "emit the frame" (41_sync.md R58). -/
def outqAppend (f : Frame) (s : State) : State := { s with outq := s.outq ++ [f] }

/-- `outq <- drop(1, outq)` (41_sync.md R63). -/
def outqDrop (s : State) : State := { s with outq := s.outq.drop 1 }

/-- `outq <- []`. -/
def outqClear (s : State) : State := { s with outq := [] }

/-- `MemRead(FRM, i, 1)`, the byte `outq[0][i]`; the window exists only while a frame waits (20_memory.md R17). -/
def frmRead (i : Fin Constants.frameLen) (s : State) : Option Byte :=
  match s.outq with
  | [] => none
  | f :: _ => some (f.get i)

/-- `crc <- v`. -/
def setCrc (v : Word) (s : State) : State := { s with crc := v }

/-- The effect of either reset event on the block (10_state.md R16, 70_reset_and_hazards.md R82). The capacities and
the command port are not the block's state and stay. -/
def resetBlock (s : State) : State :=
  { s with crc := Constants.crcInitValue, acc := [], outq := [], sr := 0x00 }

/-- `len <= cap`. -/
def capAllows : Sys2Proof.Capacity → Nat → Bool
  | .finite k, n => decide (n ≤ k)
  | .inf, _ => true

/-- The storage spaces are within their capacities: `len(acc) <= ACC_CAP` and `len(outq) <= OUTQ_CAP` (10_state.md R9).
Each space is one list in index order, so equal contents are equal data; that a frame has 64 bytes is in its type. -/
def Memory.wf (s : State) : Bool :=
  capAllows s.caps.accCap s.acc.length && capAllows s.caps.outqCap s.outq.length

end Sys2Proof.Machine
end

