-- ==== Sys2Proof/Machine/Crc.lean ====
section
/-! DEFINITION. The Checksum Unit: the function of 40_crc.md R41 to R43 and the commands of R46 to R48. -/

namespace Sys2Proof.Machine

/-- One round (R41): the test of "the high bit" is on `r` before the shift, and the shift loses bit 15. -/
def crcRound (r : Word) : Word :=
  if r.getLsbD 15 then (r <<< 1) ^^^ Constants.crcPoly else r <<< 1

/-- `n` rounds. -/
def crcRounds : Nat → Word → Word
  | 0, r => r
  | n + 1, r => crcRounds n (crcRound r)

/-- One byte (R42): into bits 15 to 8, then 8 rounds. -/
def crcByte (r : Word) (b : Byte) : Word :=
  crcRounds Constants.crcRounds (r ^^^ (zext16 b <<< 8))

/-- The bytes of a sequence in increasing index, from register value `r`. -/
def crcBytes (r : Word) : List Byte → Word
  | [] => r
  | b :: bs => crcBytes (crcByte r b) bs

/-- The checksum of a byte sequence (R43). -/
def checksum (s : List Byte) : Word := crcBytes Constants.crcInitValue s

/-- `CRC.INIT` (R46). -/
def execCrcInit (s : State) : Host.Outcome State Fault Refusal :=
  .next (respond false 0 (setCrc Constants.crcInitValue s))

/-- `CRC.UPD b` (R47): it continues from whatever `crc` holds. -/
def execCrcUpd (b : Byte) (s : State) : Host.Outcome State Fault Refusal :=
  .next (respond false 0 (setCrc (crcByte s.crc b) s))

/-- `CRC.RD` (R48). -/
def execCrcRd (s : State) : Host.Outcome State Fault Refusal :=
  .next (respond false s.crc s)

end Sys2Proof.Machine
end

