-- ==== Sys2Proof/Machine/Frames.lean ====
section
/-! DEFINITION. The frame: the marker search (41_sync.md R51), the validity rule (30_encoding.md R28 to R30), the
candidate (41_sync.md R56) and the reference function `encode` (30_encoding.md R32). -/

namespace Sys2Proof.Machine

/-- Whether a sequence begins with the marker. -/
def beginsWithMarker (s : List Byte) : Bool := Constants.marker.isPrefixOf s

/-- `find_marker(s)`: the least offset at which the marker stands, or none (R51). -/
def findMarker : List Byte → Option Nat
  | [] => none
  | b :: bs => if beginsWithMarker (b :: bs) then some 0 else (findMarker bs).map (· + 1)

/-- `marker_ok(f)` (R28). -/
def markerOk (f : Frame) : Bool := beginsWithMarker f.toList

/-- `f[4..61]`, the bytes the checksum covers (R29). -/
def coveredBytes (f : Frame) : List Byte :=
  (f.toList.take (Constants.ckLast + 1)).drop Constants.ckFirst

/-- `{f[62], f[63]}`, big-endian (R29, 20_memory.md R19). -/
def storedChecksum (f : Frame) : Word :=
  zext16 f[Constants.ckHi] <<< 8 ||| zext16 f[Constants.ckLo]

/-- `crc_ok(f)` (R29). Its checksum has its own working value, not the register `crc` (41_sync.md R56). -/
def crcOk (f : Frame) : Bool := checksum (coveredBytes f) == storedChecksum f

/-- `valid(f)` (R30); nothing else is checked (R31). -/
def valid (f : Frame) : Bool := markerOk f && crcOk f

/-- `acc[0..63]` of an accumulator of at least 64 bytes (R56); none of a shorter one. -/
def candidate (a : List Byte) : Option Frame :=
  if h : Constants.frameLen ≤ a.length then
    some ⟨(a.take Constants.frameLen).toArray, by simp [h]⟩
  else none

/-- `encode'(command, response, reserved, payload)` (R32), for a payload of at most 55 bytes. -/
def encodeFrame' (command response reserved : Byte) (payload : List Byte) : List Byte :=
  let pad := payload ++ List.replicate (Constants.payloadLen - payload.length) 0
  let body := [command, response, reserved] ++ pad
  let c := checksum body
  Constants.marker ++ body ++ [c.extractLsb' 8 8, c.extractLsb' 0 8]

/-- `encode(command, payload)` (R32): response code 0 and reserved 0. For test benches; no meaning uses it. -/
def encodeFrame (command : Byte) (payload : List Byte) : List Byte :=
  encodeFrame' command 0 0 payload

end Sys2Proof.Machine
end

