-- ==== Sys2Proof/Machine/Sync.lean ====
section
/-! DEFINITION. The Frame Synchronizer: the procedure `scan` branch by branch (41_sync.md R52 to R59) and the commands
of R60 to R66. -/

namespace Sys2Proof.Machine

/-- The stop codes of `scan` (R59). -/
inductive StopCode where
  /-- the marker is not in the accumulator -/
  | noMarker
  /-- aligned, fewer than 64 bytes -/
  | waitBytes
  /-- a valid candidate and no room in the output queue -/
  | outFull
deriving DecidableEq, Repr

/-- The number of a stop code (R59). -/
def StopCode.number : StopCode → Word
  | .noMarker => 0
  | .waitBytes => 1
  | .outFull => 2

/-- What one iteration of `scan` comes to: it returns a stop code, or goes round again (R52). -/
inductive Pass where
  /-- the iteration returns -/
  | stop (code : StopCode) (s : State)
  /-- "go round again" -/
  | again (s : State)
deriving DecidableEq, Repr

/-- Path A, marker absent (R53). -/
def noMarkerDiscard (s : State) : State :=
  if s.acc.length = 0 then s
  else if s.acc.length > Constants.nomarkLimit then setFlag .nomark (accDrop Constants.nomarkDrop s)
  else setFlag .nomark (accClear s)

/-- Resync (R54): nothing when `p = 0`. -/
def resync (p : Nat) (s : State) : State :=
  if p = 0 then s else setFlag .resync (accDrop p s)

/-- Path C, candidate not valid: its flag, and exactly one byte dropped (R57). -/
def dropBad (f : Flag) (s : State) : State := accDrop Constants.badDrop (setFlag f s)

/-- The judgement of a candidate, the marker tested first (R56): paths C (R57), E and D (R58). -/
def judge (cand : Frame) (s : State) : Pass :=
  if markerOk cand = false then .again (dropBad .badmark s)
  else if crcOk cand = false then .again (dropBad .badcrc s)
  else if outqFull s then .stop .outFull s
  else .again (accDrop Constants.frameLen (outqAppend cand s))

/-- An iteration from R55 on: path B while there are fewer than 64 bytes, else the candidate. -/
def alignedPass (s : State) : Pass :=
  match candidate s.acc with
  | none => .stop .waitBytes s
  | some cand => judge cand s

/-- One iteration (R52). -/
def scanPass (s : State) : Pass :=
  match findMarker s.acc with
  | none => .stop .noMarker (noMarkerDiscard s)
  | some p => alignedPass (resync p s)

/-- At most `n` iterations. The case 0 is never reached from `scan`, which gives one more iteration than `acc` has bytes
(R59, "Termination"; Laws/Sync.lean `scan_unfold` proves the loop's own equation, in which it does not occur). -/
def scanLoop : Nat → State → StopCode × State
  | 0, s => (.waitBytes, s)
  | n + 1, s =>
    match scanPass s with
    | .stop code t => (code, t)
    | .again t => scanLoop n t

/-- `scan()` (R59). -/
def scan (s : State) : StopCode × State := scanLoop (s.acc.length + 1) s

/-- `SYNC.PUSH b` (R60). -/
def execSyncPush (b : Byte) (s : State) : Host.Outcome State Fault Refusal :=
  if accFull s then .next (raise .accOverflow s) else .next (respond false 0 (accAppend b s))

/-- `SYNC.SCAN` (R61). -/
def execSyncScan (s : State) : Host.Outcome State Fault Refusal :=
  .next (respond false (scan s).1.number (scan s).2)

/-- `SYNC.RDF idx` (R62); an `arg` of 64 or more is a reserved word, `IllegalCommand` before the queue is looked at
(R36, R37, R74; DEDUCED for a term that no word decodes to, log entry 12). -/
def execSyncRdf (arg : Byte) (s : State) : Host.Outcome State Fault Refusal :=
  match frameIndex arg with
  | none => .next (raise .illegalCommand s)
  | some idx =>
    match frmRead idx s with
    | none => .next (raise .queueEmpty s)
    | some b => .next (respond false (zext16 b) s)

/-- `SYNC.POP` (R63). -/
def execSyncPop (s : State) : Host.Outcome State Fault Refusal :=
  if s.outq.length = 0 then .next (raise .queueEmpty s) else .next (respond false 0 (outqDrop s))

/-- `SYNC.RDFC` (R64). -/
def execSyncRdfc (s : State) : Host.Outcome State Fault Refusal :=
  .next (respond false (saturate16 s.outq.length) s)

/-- `SYNC.RDAL` (R65). -/
def execSyncRdal (s : State) : Host.Outcome State Fault Refusal :=
  .next (respond false (saturate16 s.acc.length) s)

/-- `SYNC.CLR` (R66). -/
def execSyncClr (s : State) : Host.Outcome State Fault Refusal :=
  .next (respond false 0 (outqClear (accClear s)))

end Sys2Proof.Machine
end

