-- ==== Sys2Proof/Machine/System.lean ====
section
/-! DEFINITION. The status and reset commands (42_system.md R69 to R71). -/

namespace Sys2Proof.Machine

/-- `RDSR` (R69): reading clears nothing. -/
def execRdsr (s : State) : Host.Outcome State Fault Refusal :=
  .next (respond false (zext16 s.sr) s)

/-- `CLRF` (R70). -/
def execClrf (s : State) : Host.Outcome State Fault Refusal :=
  .next (respond false 0 { s with sr := srClearEvents s.sr })

/-- `RESET` (R71). -/
def execReset (s : State) : Host.Outcome State Fault Refusal :=
  .next (respond false 0 (resetBlock s))

end Sys2Proof.Machine
end

