-- ==== Sys2Proof/Machine/Dispatch.lean ====
section
/-! DEFINITION. The meaning of each command, one arm per row of spec/opcode_table.json. -/

namespace Sys2Proof.Machine

def exec (i : Instr) (s : State) : Host.Outcome State Fault Refusal :=
  match i with
  | .crcInit => Sys2Proof.Machine.execCrcInit s
  | .crcUpd b => Sys2Proof.Machine.execCrcUpd b s
  | .crcRd => Sys2Proof.Machine.execCrcRd s
  | .syncPush b => Sys2Proof.Machine.execSyncPush b s
  | .syncScan => Sys2Proof.Machine.execSyncScan s
  | .syncRdf arg => Sys2Proof.Machine.execSyncRdf arg s
  | .syncPop => Sys2Proof.Machine.execSyncPop s
  | .rdsr => Sys2Proof.Machine.execRdsr s
  | .clrf => Sys2Proof.Machine.execClrf s
  | .syncRdal => Sys2Proof.Machine.execSyncRdal s
  | .syncRdfc => Sys2Proof.Machine.execSyncRdfc s
  | .syncClr => Sys2Proof.Machine.execSyncClr s
  | .reset => Sys2Proof.Machine.execReset s

end Sys2Proof.Machine
end

