-- ==== Sys2Proof/Machine/Port.lean ====
section
/-! DEFINITION. The command port (00_scope.md R5, 30_encoding.md R37): what the block does with one command word, and
how the host presents words. -/

namespace Sys2Proof.Machine

/-- What one word does once taken: decode it from the word alone, then raise `IllegalCommand` for a reserved word or
execute the command (R37). -/
def runWord (cmd : Word) (s : State) : Host.Outcome State Fault Refusal :=
  match decode cmd with
  | .ok i => exec i s
  | .error _ => .next (raise .illegalCommand s)

/-- `cmd` becomes the next word the host presents; those it had still to present come after it. -/
def presentNext (cmd : Word) (s : State) : State := { s with commands := cmd :: s.commands }

/-- Take the next command word, if the host presents one, and execute it as one atomic step with one response (R5). With
no word presented nothing happens (DESIGN CHOICE, log entry 1). -/
def takeCommand (s : State) : Host.Outcome State Fault Refusal :=
  match s.commands with
  | [] => .next s
  | cmd :: rest => runWord cmd { s with commands := rest }

end Sys2Proof.Machine
end

