-- ==== Sys2Proof/Machine/Step.lean ====
section
/-! DEFINITION. One step of the machine, and how an instruction is put where the next step takes it. -/

namespace Sys2Proof.Machine

/-- One step: one command of the host's stream (00_scope.md R5, 20_memory.md R24). -/
def step (s : State) : Host.Outcome State Fault Refusal := takeCommand s

/-- The command word `w` presented to the port next. Nothing else changes (log entry 4). -/
def State.withFetchWord (s : State) (nbits w : Nat) : State :=
  match tableWord nbits w with
  | some cmd => presentNext cmd s
  | none => s

end Sys2Proof.Machine
end

