-- ==== Sys2Proof/Machine/Assembler.lean ====
section
/-! DEFINITION. The assembler syntax of 30_encoding.md R38: one command per line, a mnemonic and at most one number. A
line is a list of characters. What R38 leaves open of the text is DESIGN CHOICE, safe (log entry 11). -/

namespace Sys2Proof.Machine

/-- "`--` begins a comment." -/
def stripComment : List Char → List Char
  | [] => []
  | [c] => [c]
  | c :: d :: rest => if c = '-' ∧ d = '-' then [] else c :: stripComment (d :: rest)

/-- The words of a line, separated by spaces and tabs; `cur` is the word being read, last character first. -/
def splitWords (cur : List Char) : List Char → List (List Char)
  | [] => if cur.isEmpty then [] else [cur.reverse]
  | c :: rest =>
    if c = ' ' ∨ c = '\t' then
      (if cur.isEmpty then splitWords [] rest else cur.reverse :: splitWords [] rest)
    else splitWords (c :: cur) rest

/-- The value of a digit. -/
def digitValue (c : Char) : Option Nat :=
  if '0' ≤ c ∧ c ≤ '9' then some (c.toNat - 48)
  else if 'a' ≤ c ∧ c ≤ 'f' then some (c.toNat - 87)
  else if 'A' ≤ c ∧ c ≤ 'F' then some (c.toNat - 55)
  else none

/-- Digits of a base, after `acc`. -/
def digits (base acc : Nat) : List Char → Option Nat
  | [] => some acc
  | c :: rest =>
    match digitValue c with
    | none => none
    | some d => if d < base then digits base (acc * base + d) rest else none

/-- "Numbers are decimal, or hexadecimal with `0x`." -/
def parseNumber : List Char → Option Nat
  | [] => none
  | '0' :: 'x' :: [] => none
  | '0' :: 'x' :: c :: rest => digits 16 0 (c :: rest)
  | c :: rest => digits 10 0 (c :: rest)

/-- The ten commands without an operand. "Mnemonics are case-sensitive, upper case." -/
def plainCommand (m : List Char) : Option Instr :=
  if m = "CRC.INIT".toList then some .crcInit
  else if m = "CRC.RD".toList then some .crcRd
  else if m = "SYNC.SCAN".toList then some .syncScan
  else if m = "SYNC.POP".toList then some .syncPop
  else if m = "RDSR".toList then some .rdsr
  else if m = "CLRF".toList then some .clrf
  else if m = "SYNC.RDAL".toList then some .syncRdal
  else if m = "SYNC.RDFC".toList then some .syncRdfc
  else if m = "SYNC.CLR".toList then some .syncClr
  else if m = "RESET".toList then some .reset
  else none

/-- The three commands with an operand: "The operand of `CRC.UPD` and `SYNC.PUSH` must be 0 to 255, that of `SYNC.RDF`
0 to 63; an assembler refuses anything else". -/
def operandCommand (m : List Char) (n : Nat) : Option Instr :=
  if m = "CRC.UPD".toList then (if n ≤ 255 then some (.crcUpd (BitVec.ofNat 8 n)) else none)
  else if m = "SYNC.PUSH".toList then (if n ≤ 255 then some (.syncPush (BitVec.ofNat 8 n)) else none)
  else if m = "SYNC.RDF".toList then (if n ≤ 63 then some (.syncRdf (BitVec.ofNat 8 n)) else none)
  else none

/-- A line: no command (blank, or a comment only), one command, or refused (`none`). -/
def assembleLine (line : List Char) : Option (List Instr) :=
  match splitWords [] (stripComment line) with
  | [] => some []
  | [m] => (plainCommand m).map (fun i => [i])
  | [m, n] => ((parseNumber n).bind (operandCommand m)).map (fun i => [i])
  | _ => none

/-- The command words of a text of lines, in order. -/
def assemble : List (List Char) → Option (List Word)
  | [] => some []
  | line :: rest =>
    match assembleLine line, assemble rest with
    | some is, some ws => some (is.map encode ++ ws)
    | _, _ => none

end Sys2Proof.Machine
end

