-- ==== Sys2Proof/Machine/Run.lean ====
section
/-! DEFINITION. Sequences of commands (20_memory.md R24) and the pseudo-commands of 30_encoding.md R39. -/

namespace Sys2Proof.Machine

/-- The state after commands `c1, .., cn` is `step(cn, .. step(c1, s))` (R24), stopping at the first stop. -/
def execAll : List Instr → State → Host.Outcome State Fault Refusal
  | [], s => .next s
  | i :: is, s =>
    match exec i s with
    | .next t => execAll is t
    | .fault r => .fault r
    | .refused r => .refused r

/-- `k` steps, stopping at the first stop. -/
def runSteps : Nat → State → Host.Outcome State Fault Refusal
  | 0, s => .next s
  | k + 1, s =>
    match step s with
    | .next t => runSteps k t
    | .fault r => .fault r
    | .refused r => .refused r

/-- `CRC.MSG b0, .., b(n-1)`: the source's `checksum(bytes)` (R39). -/
def crcMsg (bs : List Byte) : List Instr := .crcInit :: (bs.map .crcUpd ++ [.crcRd])

/-- `SYNC.FEED b0, .., b(n-1)`: one transport delivery and one run of the contract (R39). -/
def syncFeed (bs : List Byte) : List Instr := bs.map .syncPush ++ [.syncScan]

/-- `SYNC.GETF`: taking one emitted frame (R39). -/
def syncGetf : List Instr :=
  (List.range Constants.frameLen).map (fun i => .syncRdf (BitVec.ofNat 8 i)) ++ [.syncPop]

end Sys2Proof.Machine
end

