-- ==== Sys2Proof/Safety.lean ====
section
/-! DEFINITION. What holds of a state of a run, and the words in which statements about runs are written. -/

namespace Sys2Proof.Machine

/-- The invariants of 41_sync.md R67, (a), (c), (d) and (e). -/
structure BlockInv (s : State) : Prop where
  /-- (a) every queued frame is valid; its 64 bytes are in its type -/
  frames : ∀ f ∈ s.outq, valid f = true
  /-- (c) both spaces are within their capacities -/
  storage : Memory.wf s = true
  /-- (d) the reserved bit reads as 0 -/
  reserved : srReserved s.sr = false
  /-- (e) the dead arm's flag is clear -/
  badmark : srHas s.sr .badmark = false

/-- "the host drove the block correctly": `SR[6:4] = 0` (60_exceptions.md R76). -/
def HostDroveCorrectly (s : State) : Prop := srNoFault s.sr = true

/-- The values of `op` in the opcode map of the ten commands that take no operand (30_encoding.md R35, R36). -/
def operandlessOps : List Nat := [0x01, 0x03, 0x11, 0x13, 0x14, 0x15, 0x16, 0x17, 0x18, 0xFF]

/-- The reserved command words, as R36 lists them: an `op` outside the map with any `arg`, an operand-less command with
`arg` not 0, and `SYNC.RDF` with `arg` 64 to 255. -/
def IsReserved (cmd : Word) : Prop :=
  cmd.toNat / 256 ∉ operandlessOps ++ [0x02, 0x10, 0x12] ∨
    (cmd.toNat / 256 ∈ operandlessOps ∧ cmd.toNat % 256 ≠ 0) ∨
      (cmd.toNat / 256 = 0x12 ∧ 64 ≤ cmd.toNat % 256)

/-- `cmd` is the one word of the command `i`, which takes no operand: of all 65536 words it alone decodes to `i`, and the
words of the same `op` with `arg` 1 to 255 are reserved (R35, R36). -/
def IsTheOnlyWordOf (cmd : Word) (i : Instr) : Prop :=
  (∀ w : Word, decode w = .ok i ↔ w = cmd) ∧ ∀ arg : Byte, arg ≠ 0 → IsReserved (cmd + arg.setWidth 16) ∧
    ∃ e : DecodeError, decode (cmd + arg.setWidth 16) = .error e

/-- The bytes that a sequence of commands gives to `CRC.UPD`, in order (40_crc.md R49). -/
def crcBytesGiven : List Instr → List Byte
  | [] => []
  | .crcUpd b :: is => b :: crcBytesGiven is
  | _ :: is => crcBytesGiven is

/-- The marker stands in `s` at offset `p` (41_sync.md R51). -/
def MarkerAt (s : List Byte) (p : Nat) : Prop :=
  p + 3 < s.length ∧ s[p]? = some 0x01 ∧ s[p + 1]? = some 0x02 ∧ s[p + 2]? = some 0x03 ∧ s[p + 3]? = some 0x04

/-- The words `ws` presented after those the host has still to present. -/
def State.presenting (s : State) (ws : List Word) : State := { s with commands := s.commands ++ ws }

/-- `u` is a state in which some iteration of `scan` from `s` begins (41_sync.md R52). -/
inductive IterationBegins (s : State) : State → Prop where
  /-- the first iteration -/
  | first : IterationBegins s s
  /-- an iteration after one that went round again -/
  | later {u v : State} : IterationBegins s u → scanPass u = .again v → IterationBegins s v

/-- Some non-empty suffix of `a` is a proper prefix of the marker: `01`, `01 02` or `01 02 03` (41_sync.md R68). -/
def endsInMarkerBeginning (a : List Byte) : Bool :=
  [[0x01], [0x01, 0x02], [0x01, 0x02, 0x03]].any (fun p => p.isSuffixOf a)

/-- A `scan` from `s` loses no beginning of a marker: if an iteration takes path A with `len(acc) <= 64`, its accumulator
does not end in one (41_sync.md R68). -/
def LosesNoMarkerBeginning (s : State) : Prop :=
  ∀ u, IterationBegins s u → findMarker u.acc = none → u.acc.length ≤ Constants.nomarkLimit →
    endsInMarkerBeginning u.acc = false

/-- No `SYNC.SCAN` among the commands, run in turn from the state, loses a beginning of a marker (R68). -/
def CutsAreSafe : List Instr → State → Prop
  | [], _ => True
  | i :: is, s =>
    (i = .syncScan → LosesNoMarkerBeginning s) ∧ ∀ t, exec i s = .next t → CutsAreSafe is t

/-- "`OUTQ_CAP` and `ACC_CAP` never reached" (R68): of the commands, run in turn from the state, no `SYNC.PUSH` finds the
accumulator full (R60) and no `SYNC.SCAN` has a valid candidate that the output queue has no room for (R58). -/
def ReachesNoCapacity : List Instr → State → Prop
  | [], _ => True
  | i :: is, s =>
    ((∃ b, i = .syncPush b) → accFull s = false) ∧ (i = .syncScan → (scan s).1 ≠ .outFull) ∧
      ∀ t, exec i s = .next t → ReachesNoCapacity is t

/-- The bytes that a sequence of commands gives to `SYNC.PUSH`, in order. -/
def bytesPushed : List Instr → List Byte
  | [] => []
  | .syncPush b :: is => b :: bytesPushed is
  | _ :: is => bytesPushed is

/-- The frames emitted in total by a sequence of commands: those its `SYNC.SCAN` commands append to `outq` (R6), in order,
also where the host has taken some of them since. -/
def framesEmitted : List Instr → State → List Frame
  | [], _ => []
  | i :: is, s =>
    match exec i s with
    | .next t => (if i = .syncScan then t.outq.drop s.outq.length else []) ++ framesEmitted is t
    | .fault _ => []
    | .refused _ => []

/-- `a` consists, in order and without overlap, of discarded bytes, the 64 bytes of each frame of the list, and at its end
the bytes left (20_memory.md R18, 41_sync.md R67 (b)). -/
inductive CutsInto : List Byte → List Frame → List Byte → Prop where
  /-- discarded bytes, then the bytes left -/
  | rest (gap left : List Byte) : CutsInto (gap ++ left) [] left
  /-- discarded bytes, a frame, and the same of what follows -/
  | frame (gap : List Byte) (f : Frame) {a : List Byte} {fs : List Frame} {left : List Byte} :
      CutsInto a fs left → CutsInto (gap ++ (f.toList ++ a)) (f :: fs) left

end Sys2Proof.Machine
end

