-- ==== Sys2Proof/Certificates/Slice0/Obligations.lean ====
section
/-! DEFINITION. The statements for the provers, each about the block as spec/ describes it. -/

open Sys2Proof Sys2Proof.Machine

/-! ## The command word -/

/-- Headline (a): decoding the word of a well-formed command gives the command back, with its operand (30_encoding.md R33,
R35, R38, R40). -/
def Obligations.DecodeOfEncodeIsTheCommand : Prop :=
  ∀ i : Instr, i.wellFormed = true → decode (encode i) = .ok i

/-- The other direction: what a word decodes to is well formed and has that word as its encoding, so no two words decode
to one command (R35, R38). -/
def Obligations.EncodeOfDecodeIsTheWord : Prop :=
  ∀ (cmd : Word) (i : Instr), decode cmd = .ok i → i.wellFormed = true ∧ encode i = cmd

/-- "`cmd` is that command exactly when `(cmd and mask) = match`", with `arg` as the operand, and the thirteen patterns
are disjoint (R35). -/
def Obligations.DecodingFollowsMaskAndMatch : Prop :=
  (∀ (cmd : Word) (i : Instr), decode cmd = .ok i ↔ cmd &&& i.mask = i.pattern ∧ i.operand = cmd.extractLsb' 0 8) ∧
    ∀ (cmd : Word) (i j : Instr), cmd &&& i.mask = i.pattern → cmd &&& j.mask = j.pattern → i.pattern = j.pattern

/-- Every reserved word of R36 raises `IllegalCommand` in every state: it changes nothing but `SR.ILL` and responds
`(1, 1)`; every other word is a command. -/
def Obligations.ReservedWordsRaiseIllegalCommand : Prop :=
  ∀ (s : State) (cmd : Word) (rest : List Word), s.commands = cmd :: rest →
    (IsReserved cmd →
      step s = .next { s with commands := rest, sr := s.sr ||| 0x20#8, responses := s.responses ++ [⟨true, 1⟩] }) ∧
      (¬ IsReserved cmd → ∃ i : Instr, i.wellFormed = true ∧ decode cmd = .ok i)

/-- "Of the 65536 words, 586 are legal" (R36): some 586 different words are those that decode. -/
def Obligations.LegalWordsNumber586 : Prop :=
  ∃ ws : List Word, ws.length = 586 ∧ ws.Nodup ∧ ∀ cmd : Word, cmd ∈ ws ↔ ∃ i : Instr, decode cmd = .ok i

/-- What a step does with the word presented (R37): a word that decodes is executed with the word taken from the host's
stream; a word that does not raises `IllegalCommand`, whatever the state, so also `SYNC.RDF 64` (0x1240) on an empty queue. -/
def Obligations.StepRunsTheDecodedCommand : Prop :=
  ∀ (s : State) (cmd : Word) (rest : List Word), s.commands = cmd :: rest →
    (∀ i : Instr, decode cmd = .ok i → step s = exec i { s with commands := rest }) ∧
      (∀ e : DecodeError, decode cmd = .error e →
        step s = .next { s with commands := rest, sr := s.sr ||| 0x20#8, responses := s.responses ++ [⟨true, 1⟩] }) ∧
        (∃ e : DecodeError, decode 0x1240 = .error e)

/-- A step with no command presented leaves the state as it is. The MODEL's choice, not the spec's (log entry 1). -/
def Obligations.IdleStepChangesNothing : Prop :=
  ∀ s : State, s.commands = [] → step s = .next s

/-- A few words of R35 and of spec/95_test_vectors.md, one or more of each family, written out. -/
def Obligations.WrittenOutWordsDecode : Prop :=
  decode 0x0100 = .ok .crcInit ∧ decode 0x0231 = .ok (.crcUpd 0x31) ∧ decode 0x0300 = .ok .crcRd ∧
    decode 0x1004 = .ok (.syncPush 0x04) ∧ decode 0x1100 = .ok .syncScan ∧ decode 0x123F = .ok (.syncRdf 63) ∧
      decode 0x1300 = .ok .syncPop ∧ decode 0x1600 = .ok .syncRdal ∧ decode 0x1700 = .ok .syncRdfc ∧
        decode 0x1800 = .ok .syncClr ∧ decode 0x1400 = .ok .rdsr ∧ decode 0x1500 = .ok .clrf ∧ decode 0xFF00 = .ok .reset

/-- Running the words of a sequence of commands, one step a word, is running the commands (00_scope.md R5, 20_memory.md
R24): what is proved of `execAll` holds of the machine's own steps. -/
def Obligations.RunningWordsIsRunningCommands : Prop :=
  ∀ (is : List Instr) (s : State) (rest : List Word), (∀ i ∈ is, i.wellFormed = true) →
    s.commands = is.map encode ++ rest →
    runSteps is.length s = execAll is { s with commands := rest }

/-- An assembler takes the thirteen mnemonics, with an operand exactly where R38 gives one and in its range, and
`cmd = op * 256 + operand`; it "refuses anything else" (R38). -/
def Obligations.AssemblerRefusesOperandsOutOfRange : Prop :=
  (∀ n : Nat,
    (operandCommand "CRC.UPD".toList n = if n ≤ 255 then some (.crcUpd (BitVec.ofNat 8 n)) else none) ∧
      (operandCommand "SYNC.PUSH".toList n = if n ≤ 255 then some (.syncPush (BitVec.ofNat 8 n)) else none) ∧
        (operandCommand "SYNC.RDF".toList n = if n ≤ 63 then some (.syncRdf (BitVec.ofNat 8 n)) else none)) ∧
    ["CRC.INIT", "CRC.RD", "SYNC.SCAN", "SYNC.POP", "RDSR", "CLRF", "SYNC.RDAL", "SYNC.RDFC", "SYNC.CLR", "RESET"].map
        (fun m => plainCommand m.toList) =
      [some .crcInit, some .crcRd, some .syncScan, some .syncPop, some .rdsr, some .clrf, some .syncRdal,
        some .syncRdfc, some .syncClr, some .reset] ∧
      ∀ (m : List Char) (n : Nat),
        (∀ i : Instr, operandCommand m n = some i →
          i.wellFormed = true ∧ n < 256 ∧ (encode i).toNat = i.op.toNat * 256 + n ∧ plainCommand m = none) ∧
          (255 < n → operandCommand m n = none) ∧
            (∀ i : Instr, plainCommand m = some i →
              operandCommand m n = none ∧ (encode i).toNat = i.op.toNat * 256)

/-! ## The Checksum Unit -/

/-- `CRC.INIT` (40_crc.md R46), with its frame. -/
def Obligations.CrcInitStartsAChecksum : Prop :=
  IsTheOnlyWordOf 0x0100 .crcInit ∧
    ∀ s : State, exec .crcInit s =
      .next { s with crc := 0xFFFF#16, responses := s.responses ++ [⟨false, 0x0000⟩] }

/-- `CRC.UPD b` (R47), with its frame: the new register is `crc_byte` of whatever `crc` held, for every byte. -/
def Obligations.CrcUpdContinuesTheChecksum : Prop :=
  ∀ (b : Byte), decode (0x0200#16 + b.setWidth 16) = .ok (.crcUpd b) ∧
    ∀ s : State, exec (.crcUpd b) s =
      .next { s with crc := crcByte s.crc b, responses := s.responses ++ [⟨false, 0x0000⟩] }

/-- `CRC.RD` (R48), with its frame: it may be repeated. -/
def Obligations.CrcRdReadsTheRegister : Prop :=
  IsTheOnlyWordOf 0x0300 .crcRd ∧
    ∀ s : State, exec .crcRd s = .next { s with responses := s.responses ++ [⟨false, s.crc⟩] }

/-- One round in numbers (R41): doubled, the bit shifted out lost, and the polynomial XORed in when the high bit was set
before the shift. -/
def Obligations.CrcRoundShiftsAndReduces : Prop :=
  ∀ r : Word, (crcRound r).toNat =
    if 32768 ≤ r.toNat then (2 * r.toNat % 65536) ^^^ 0x1021 else 2 * r.toNat

/-- One byte (R42): eight rounds on the register with the byte XORed into bits 15 to 8, bits 7 to 0 unchanged. -/
def Obligations.CrcByteIsEightRounds : Prop :=
  ∀ (r : Word) (b : Byte),
    ∃ t : Word, t.extractLsb' 8 8 = r.extractLsb' 8 8 ^^^ b ∧ t.extractLsb' 0 8 = r.extractLsb' 0 8 ∧
      crcByte r b = crcRound^[8] t

/-- The commands agree with the function (R49): after `CRC.INIT`, or from the reset value of `crc`, any sequence without
`CRC.INIT` and `RESET` leaves in `crc` the checksum of the bytes it gave to `CRC.UPD`, whatever `SYNC.*`, `RDSR`, `CLRF`
and `CRC.RD` commands stand between, and `CRC.RD` then responds with it. R49 is the spec's own inference ("derived: from
rules R43, R46, R47, R48"). -/
def Obligations.CrcCommandsComputeTheChecksum : Prop :=
  ∀ (is : List Instr) (s : State), (∀ i ∈ is, i ≠ .crcInit ∧ i ≠ .reset) →
    (∃ t, execAll (.crcInit :: is) s = .next t ∧ t.crc = checksum (crcBytesGiven is) ∧
      exec .crcRd t = .next { t with responses := t.responses ++ [⟨false, checksum (crcBytesGiven is)⟩] }) ∧
      (s.crc = 0xFFFF#16 →
        ∃ t, execAll is s = .next t ∧ t.crc = checksum (crcBytesGiven is) ∧
          exec .crcRd t = .next { t with responses := t.responses ++ [⟨false, checksum (crcBytesGiven is)⟩] })

/-- `CRC.UPD` continues and `CRC.RD` does not re-arm it (70_reset_and_hazards.md R84): a second message without its own
`CRC.INIT` gives the checksum of the two joined. -/
def Obligations.ForgottenCrcInitJoinsTheMessages : Prop :=
  ∀ (a b : List Byte) (s : State), ∃ t,
    execAll (crcMsg a ++ (b.map .crcUpd ++ [.crcRd])) s = .next t ∧
      t.responses.getLast? = some ⟨false, checksum (a ++ b)⟩

/-- Appending its checksum to a message, high byte first, gives checksum 0 (R45 (a)). -/
def Obligations.AppendedChecksumLeavesZero : Prop :=
  ∀ m : List Byte,
    checksum (m ++ [(checksum m).extractLsb' 8 8, (checksum m).extractLsb' 0 8]) = 0x0000#16

/-- `crc_ok(f)` is equivalent to `checksum(f[4..63]) = 0x0000` (R45 (a)). -/
def Obligations.CrcOkExactlyWhenResidueIsZero : Prop :=
  ∀ f : Frame, crcOk f = true ↔ checksum (f.toList.drop 4) = 0x0000#16

/-- Every single-bit change of the 58 covered bytes changes the checksum (R45 (b)). -/
def Obligations.SingleBitChangesChangeTheChecksum : Prop :=
  ∀ (a : List Byte) (i k : Nat), a.length = 58 → i < 58 → k < 8 →
    checksum (a.modify i (fun b => b ^^^ (1#8 <<< k))) ≠ checksum a

/-! ## The frame -/

/-- Validity in bytes (30_encoding.md R28, R29, R30): the marker at 0 to 3, and the checksum of bytes 4 to 61 in
increasing index equal to `f[62] * 256 + f[63]`. -/
def Obligations.ValidityIsMarkerAndChecksum : Prop :=
  ∀ f : Frame,
    (markerOk f = true ↔ f[0] = 0x01 ∧ f[1] = 0x02 ∧ f[2] = 0x03 ∧ f[3] = 0x04) ∧
      (crcOk f = true ↔ (checksum ((f.toList.drop 4).take 58)).toNat = f[62].toNat * 256 + f[63].toNat) ∧
        (valid f = true ↔ markerOk f = true ∧ crcOk f = true)

/-- `encode'` puts the command code, the response code, the reserved byte and the payload, padded with zeros, at bytes 4,
5, 6 and 7 to 61, and the frame it builds is valid whatever these bytes are: nothing else is checked (30_encoding.md R31,
R32). Every valid frame is what `encode'` builds of its own bytes 4 to 61 (R32, C9). -/
def Obligations.EncodedFramesAreValid : Prop :=
  (∀ (command response reserved : Byte) (payload : List Byte), payload.length ≤ 55 →
    encodeFrame command payload = encodeFrame' command 0 0 payload ∧
      ∃ f : Frame, f.toList = encodeFrame' command response reserved payload ∧ valid f = true ∧
        f[4] = command ∧ f[5] = response ∧ f[6] = reserved ∧
          (f.toList.drop 7).take 55 = payload ++ List.replicate (55 - payload.length) 0x00) ∧
    ∀ f : Frame, valid f = true → f.toList = encodeFrame' f[4] f[5] f[6] ((f.toList.drop 7).take 55)

/-- `find_marker(s)` is the least offset at which the marker stands, and none when there is none (41_sync.md R51). -/
def Obligations.MarkerSearchFindsTheLeastOffset : Prop :=
  ∀ s : List Byte,
    (∀ p : Nat, findMarker s = some p ↔ MarkerAt s p ∧ ∀ q < p, ¬ MarkerAt s q) ∧
      (findMarker s = none ↔ ∀ p, ¬ MarkerAt s p)

/-! ## The synchronizer's contract -/

/-- Path A (41_sync.md R53): over 64 bytes the first 10 go, otherwise all; `NOMARK` when there was a byte. -/
def Obligations.MissingMarkerDiscards : Prop :=
  ∀ s : State, findMarker s.acc = none →
    (64 < s.acc.length → scan s = (.noMarker, { s with acc := s.acc.drop 10, sr := s.sr ||| 0x01#8 })) ∧
      (0 < s.acc.length → s.acc.length ≤ 64 → scan s = (.noMarker, { s with acc := [], sr := s.sr ||| 0x01#8 })) ∧
        (s.acc = [] → scan s = (.noMarker, s))

/-- Resync (R54): the bytes ahead of the marker go, `RESYNC` is set, and the rest is scanned; afterwards the accumulator
begins with the marker. -/
def Obligations.MarkerAtAnOffsetResyncs : Prop :=
  ∀ (s : State) (p : Nat), findMarker s.acc = some p →
    MarkerAt (s.acc.drop p) 0 ∧
      (0 < p → scan s = scan { s with acc := s.acc.drop p, sr := s.sr ||| 0x02#8 })

/-- Path B (R55): aligned and fewer than 64 bytes, nothing is discarded and no flag is set. -/
def Obligations.AlignedButShortWaits : Prop :=
  ∀ s : State, MarkerAt s.acc 0 → s.acc.length < 64 → scan s = (.waitBytes, s)

/-- Path C (R56, R57): a candidate with the marker and a wrong checksum costs exactly one byte and sets `BADCRC`. -/
def Obligations.BadChecksumDropsOneByte : Prop :=
  ∀ (s : State) (f : Frame) (rest : List Byte), s.acc = f.toList ++ rest → markerOk f = true → crcOk f = false →
    scan s = scan { s with acc := s.acc.drop 1, sr := s.sr ||| 0x04#8 }

/-- Paths D and E (R58): a valid candidate is emitted unchanged with no flag set while the queue has room, and held, with
nothing changed, while it is full. -/
def Obligations.ValidFrameIsEmittedOrHeld : Prop :=
  ∀ (s : State) (f : Frame) (rest : List Byte), s.acc = f.toList ++ rest → valid f = true →
    (s.caps.outqCap = .finite s.outq.length → scan s = (.outFull, s)) ∧
      (s.caps.outqCap ≠ .finite s.outq.length → scan s = scan { s with acc := rest, outq := s.outq ++ [f] })

/-- What each stop code says of the state it leaves (R59, the table). -/
def Obligations.StopCodesDescribeTheState : Prop :=
  ∀ s : State,
    ((scan s).1 = .noMarker →
      findMarker (scan s).2.acc = none ∧ ((scan s).2.acc = [] ∨ 55 ≤ (scan s).2.acc.length)) ∧
      ((scan s).1 = .waitBytes →
        MarkerAt (scan s).2.acc 0 ∧ 4 ≤ (scan s).2.acc.length ∧ (scan s).2.acc.length ≤ 63) ∧
        ((scan s).1 = .outFull →
          64 ≤ (scan s).2.acc.length ∧ (∃ f : Frame, f.toList = (scan s).2.acc.take 64 ∧ valid f = true) ∧
            (scan s).2.caps.outqCap = .finite (scan s).2.outq.length)

/-- A scan takes from the accumulator, in order and without overlap, discarded bytes and valid frames, appends exactly
those frames to the queue, at most one for each 64 bytes, and keeps the rest (R58, R59, R67 (a) and (b), 20_memory.md
R18). -/
def Obligations.ScanCutsTheAccumulatorInOrder : Prop :=
  ∀ s : State, ∃ fs : List Frame,
    (scan s).2.outq = s.outq ++ fs ∧ CutsInto s.acc fs (scan s).2.acc ∧ (∀ f ∈ fs, valid f = true) ∧
      fs.length ≤ s.acc.length / 64

/-- `SYNC.SCAN` completes in every state with response `(0, stop code)` (R61): it never makes `err = 1`
(60_exceptions.md R77), touches neither `crc` nor the fault flags nor the reserved bit, clears no flag, and never sets
`BADMARK` (R57, the dead arm). -/
def Obligations.SyncScanRespondsTheStopCode : Prop :=
  IsTheOnlyWordOf 0x1100 .syncScan ∧
    ∀ s : State,
      exec .syncScan s = .next { s with
        acc := (scan s).2.acc, outq := (scan s).2.outq, sr := (scan s).2.sr,
        responses := s.responses ++ [⟨false,
          match (scan s).1 with
          | .noMarker => 0
          | .waitBytes => 1
          | .outFull => 2⟩] } ∧
        (∀ f : Flag, srHas s.sr f = true → srHas (scan s).2.sr f = true) ∧
          (∀ f : Flag, f = .badmark ∨ f.isEvent = false → srHas (scan s).2.sr f = srHas s.sr f) ∧
            srReserved (scan s).2.sr = srReserved s.sr

/-- A second scan with nothing pushed between changes nothing after `WAIT_BYTES` or `OUT_FULL` (R61,
70_reset_and_hazards.md R88). -/
def Obligations.HeldScanIsRepeatable : Prop :=
  ∀ s : State, (scan s).1 ≠ .noMarker → scan (scan s).2 = scan s

/-- What a scan leaves behind is bounded: unless it stops with `OUT_FULL`, `len(acc) <= max(63, n - 10)`
(70_reset_and_hazards.md R89). -/
def Obligations.ScanLeavesABoundedAccumulator : Prop :=
  ∀ s : State, (scan s).1 ≠ .outFull → (scan s).2.acc.length ≤ max 63 (s.acc.length - 10)

/-- A marker-less accumulator of `n > 64` bytes is emptied by `ceil((n - 64) / 10) + 1` scans and by no fewer (R89). -/
def Obligations.NoiseIsWornDownTenBytesAScan : Prop :=
  ∀ (s : State) (k : Nat), findMarker s.acc = none → 64 < s.acc.length →
    ∃ t, execAll (List.replicate k .syncScan) s = .next t ∧
      (t.acc = [] ↔ (s.acc.length - 64 + 9) / 10 + 1 ≤ k)

/-- Scanning after every byte emits no frame at all, ever, and keeps no byte (R87 (a); 41_sync.md R68's
counterexample). -/
def Obligations.ScanningEveryByteEmitsNothing : Prop :=
  ∀ (bs : List Byte) (s : State), s.acc = [] →
    ∃ t, execAll (bs.flatMap (fun b => syncFeed [b])) s = .next t ∧ t.acc = [] ∧ t.outq = s.outq

/-- The restricted chunking independence (41_sync.md R68), for all capacities, finite or not, that the run of the pieces
does not reach: a stream delivered in pieces, none of whose scans loses the beginning of a marker, gives the frames of the
stream pushed whole and scanned once, on a block without bounds, and on the same block wherever its accumulator holds the
stream whole. What R68 says does hold is the spec's own inference ("derived: from rules R51 to R59"). -/
def Obligations.SafeCutsEmitTheSameFrames : Prop :=
  ∀ (ds : List (List Byte)) (s : State), s.acc = [] → ReachesNoCapacity (ds.flatMap syncFeed) s →
    CutsAreSafe (ds.flatMap syncFeed) s →
    ∃ t, execAll (ds.flatMap syncFeed) s = .next t ∧
      (∃ u, execAll (syncFeed ds.flatten) { s with caps := Capacities.unbounded } = .next u ∧ t.outq = u.outq) ∧
        (capAllows s.caps.accCap ds.flatten.length = true →
          ∃ u, execAll (syncFeed ds.flatten) s = .next u ∧ t.outq = u.outq)

/-- The same with `SYNC.SCAN` at any places and a host that reads and pops between (R68): any commands but `SYNC.CLR` and
`RESET`, with a scan at the end, emit in total the frames of their stream pushed whole and scanned once. -/
def Obligations.SafeScansAtAnyPlacesEmitTheSameFrames : Prop :=
  ∀ (is : List Instr) (s : State), s.acc = [] → (∀ i ∈ is, i ≠ .syncClr ∧ i ≠ .reset) →
    ReachesNoCapacity (is ++ [.syncScan]) s → CutsAreSafe (is ++ [.syncScan]) s →
    framesEmitted (is ++ [.syncScan]) s =
        framesEmitted (syncFeed (bytesPushed is)) { s with caps := Capacities.unbounded } ∧
      (ReachesNoCapacity (syncFeed (bytesPushed is)) s →
        framesEmitted (is ++ [.syncScan]) s = framesEmitted (syncFeed (bytesPushed is)) s)

/-- Streams that reach no capacity however they are cut: those that the accumulator holds whole and whose frames, at most
one for each 64 bytes, the queue has room for; so, whatever the capacities R4 allows, every stream of fewer than 128 bytes
after reset (00_scope.md R4, 41_sync.md R58, R60, R68). -/
def Obligations.ShortStreamsReachNoCapacity : Prop :=
  (∀ (ds : List (List Byte)) (s : State), s.acc = [] → capAllows s.caps.accCap ds.flatten.length = true →
    capAllows s.caps.outqCap (s.outq.length + ds.flatten.length / 64) = true →
    ReachesNoCapacity (ds.flatMap syncFeed) s) ∧
    ∀ ds : List (List Byte), ds.flatten.length < 128 → ReachesNoCapacity (ds.flatMap syncFeed) State.reset

/-- One delivery of one valid frame into an empty accumulator emits that frame and nothing else, sets no flag, and every
response is `(0, 0)` (R58, R61, 30_encoding.md R39). -/
def Obligations.FedFrameIsEmitted : Prop :=
  ∀ (s : State) (f : Frame), s.acc = [] → valid f = true → s.caps.outqCap ≠ .finite s.outq.length →
    execAll (syncFeed f.toList) s =
      .next { s with outq := s.outq ++ [f], responses := s.responses ++ List.replicate 65 ⟨false, 0x0000⟩ }

/-! ## The synchronizer's commands -/

/-- `SYNC.PUSH b` (41_sync.md R60), with its frame: appended unless `len(acc) = ACC_CAP`, then `AccOverflow`. -/
def Obligations.SyncPushAppendsOrOverflows : Prop :=
  ∀ (b : Byte), decode (0x1000#16 + b.setWidth 16) = .ok (.syncPush b) ∧
    ∀ s : State,
      (s.caps.accCap ≠ .finite s.acc.length →
        exec (.syncPush b) s =
          .next { s with acc := s.acc ++ [b], responses := s.responses ++ [⟨false, 0x0000⟩] }) ∧
        (s.caps.accCap = .finite s.acc.length →
          exec (.syncPush b) s = .next { s with sr := s.sr ||| 0x10#8, responses := s.responses ++ [⟨true, 2⟩] })

/-- `SYNC.RDF idx` (R62), with its frame: byte `idx` of the head frame, `QueueEmpty` when there is none, and
`0x1200 + arg` is reserved for `arg >= 64` (R36). That `exec` of a term with such an `arg`, to which no word decodes, raises
`IllegalCommand` is the MODEL's choice, not the spec's (DEDUCED, log entry 12). -/
def Obligations.SyncRdfReadsTheHeadFrame : Prop :=
  (∀ i : Fin 64, decode (BitVec.ofNat 16 (0x1200 + i.val)) = .ok (.syncRdf (BitVec.ofNat 8 i.val))) ∧
    (∀ arg : Byte, 64 ≤ arg.toNat → ∃ e : DecodeError, decode (0x1200#16 + arg.setWidth 16) = .error e) ∧
    ∀ (s : State) (arg : Byte),
      (∀ (i : Fin 64) (f : Frame) (fs : List Frame), arg.toNat = i.val → s.outq = f :: fs →
        exec (.syncRdf arg) s =
          .next { s with responses := s.responses ++ [⟨false, BitVec.ofNat 16 (f.get i).toNat⟩] }) ∧
        (arg.toNat < 64 → s.outq = [] →
          exec (.syncRdf arg) s = .next { s with sr := s.sr ||| 0x40#8, responses := s.responses ++ [⟨true, 3⟩] }) ∧
          (64 ≤ arg.toNat →
            exec (.syncRdf arg) s = .next { s with sr := s.sr ||| 0x20#8, responses := s.responses ++ [⟨true, 1⟩] })

/-- In a state of a run the head frame reads as the marker at 0 to 3, and bytes 62 and 63 as the checksum of bytes 4 to
61 (R62, corner cases; R67). -/
def Obligations.HeadFrameReadsMarkerAndChecksum : Prop :=
  ∀ (s : State) (f : Frame) (fs : List Frame), BlockInv s → s.outq = f :: fs →
    (∀ i : Fin 4, exec (.syncRdf (BitVec.ofNat 8 i.val)) s =
      .next { s with responses := s.responses ++ [⟨false, BitVec.ofNat 16 (i.val + 1)⟩] }) ∧
      ∃ hi lo : Word, hi.toNat < 256 ∧ lo.toNat < 256 ∧
        exec (.syncRdf 62) s = .next { s with responses := s.responses ++ [⟨false, hi⟩] } ∧
          exec (.syncRdf 63) s = .next { s with responses := s.responses ++ [⟨false, lo⟩] } ∧
            (checksum ((f.toList.drop 4).take 58)).toNat = hi.toNat * 256 + lo.toNat

/-- `SYNC.POP` (R63), with its frame: the head frame goes, and `QueueEmpty` when there is none. It does not scan. -/
def Obligations.SyncPopRemovesTheHeadFrame : Prop :=
  IsTheOnlyWordOf 0x1300 .syncPop ∧
    ∀ s : State,
      (∀ (f : Frame) (fs : List Frame), s.outq = f :: fs →
        exec .syncPop s = .next { s with outq := fs, responses := s.responses ++ [⟨false, 0x0000⟩] }) ∧
        (s.outq = [] →
          exec .syncPop s = .next { s with sr := s.sr ||| 0x40#8, responses := s.responses ++ [⟨true, 3⟩] })

/-- `SYNC.RDFC` (R64), with its frame: the number of frames waiting, at most 0xFFFF. -/
def Obligations.SyncRdfcCountsTheFrames : Prop :=
  IsTheOnlyWordOf 0x1700 .syncRdfc ∧
    ∀ s : State, ∃ d : Word, d.toNat = min s.outq.length 65535 ∧
      exec .syncRdfc s = .next { s with responses := s.responses ++ [⟨false, d⟩] }

/-- `SYNC.RDAL` (R65), with its frame: the number of bytes accumulated, at most 0xFFFF. -/
def Obligations.SyncRdalCountsTheBytes : Prop :=
  IsTheOnlyWordOf 0x1600 .syncRdal ∧
    ∀ s : State, ∃ d : Word, d.toNat = min s.acc.length 65535 ∧
      exec .syncRdal s = .next { s with responses := s.responses ++ [⟨false, d⟩] }

/-- `SYNC.CLR` (R66), with its frame: both buffers empty, `SR` and `crc` untouched. -/
def Obligations.SyncClrEmptiesBothBuffers : Prop :=
  IsTheOnlyWordOf 0x1800 .syncClr ∧
    ∀ s : State, exec .syncClr s =
      .next { s with acc := [], outq := [], responses := s.responses ++ [⟨false, 0x0000⟩] }

/-- `SYNC.GETF` (30_encoding.md R39) reads the 64 bytes of the head frame in order and removes it. -/
def Obligations.SyncGetfTakesTheHeadFrame : Prop :=
  ∀ (s : State) (f : Frame) (fs : List Frame), s.outq = f :: fs →
    execAll syncGetf s = .next { s with
      outq := fs,
      responses := s.responses ++ f.toList.map (fun b => ⟨false, BitVec.ofNat 16 b.toNat⟩) ++ [⟨false, 0x0000⟩] }

/-! ## Status and reset -/

/-- `RDSR` (42_system.md R69), with its frame: `data[7:0] = SR`, flag by flag, `data[15:8] = 0`; nothing is cleared. -/
def Obligations.RdsrReadsTheStatus : Prop :=
  IsTheOnlyWordOf 0x1400 .rdsr ∧
    ∀ s : State, ∃ d : Word,
      exec .rdsr s = .next { s with responses := s.responses ++ [⟨false, d⟩] } ∧
        (d.getLsbD 0 = srHas s.sr .nomark ∧ d.getLsbD 1 = srHas s.sr .resync ∧ d.getLsbD 2 = srHas s.sr .badcrc ∧
          d.getLsbD 3 = srHas s.sr .badmark ∧ d.getLsbD 4 = srHas s.sr .ovf ∧ d.getLsbD 5 = srHas s.sr .ill ∧
            d.getLsbD 6 = srHas s.sr .empty ∧ d.getLsbD 7 = srReserved s.sr) ∧
          (∀ i, 8 ≤ i → d.getLsbD i = false) ∧ (BlockInv s → d.getLsbD 3 = false ∧ d.getLsbD 7 = false)

/-- `CLRF` (R70), with its frame: the four event flags to 0, bits 4 to 7 kept. -/
def Obligations.ClrfClearsTheEventFlags : Prop :=
  IsTheOnlyWordOf 0x1500 .clrf ∧
    ∀ s : State, ∃ r : Byte,
      exec .clrf s = .next { s with sr := r, responses := s.responses ++ [⟨false, 0x0000⟩] } ∧
        (∀ i, i < 4 → r.getLsbD i = false) ∧ (∀ i, 4 ≤ i → r.getLsbD i = s.sr.getLsbD i)

/-- `RESET` (R71): the reset state of 10_state.md R16, in every piece of the block's state; the command port keeps what
was presented and answered. -/
def Obligations.ResetCommandPutsTheResetState : Prop :=
  IsTheOnlyWordOf 0xFF00 .reset ∧
    ∀ s : State, exec .reset s = .next { s with
      crc := State.reset.crc, acc := State.reset.acc, outq := State.reset.outq, sr := State.reset.sr,
      responses := s.responses ++ [⟨false, 0x0000⟩] }

/-- The state after a reset event (10_state.md R16). -/
def Obligations.ResetStateHoldsTheResetValues : Prop :=
  State.reset.crc = 0xFFFF#16 ∧ State.reset.acc = [] ∧ State.reset.outq = [] ∧ State.reset.sr = 0x00#8

/-! ## The whole machine -/

/-- The invariants hold after reset (41_sync.md R67). -/
def Obligations.ResetStateMeetsTheInvariants : Prop := BlockInv State.reset

/-- Headline (b): every step keeps the invariants of R67, for every word presented and every capacity. -/
def Obligations.EveryStepKeepsTheInvariants : Prop :=
  ∀ s t : State, BlockInv s → step s = .next t → BlockInv t

/-- Every command word, legal or not, is taken and gets exactly one response, in order, and the block never stops
(00_scope.md R5, 30_encoding.md R34, 20_memory.md R24). -/
def Obligations.EveryCommandGetsOneResponse : Prop :=
  ∀ s : State, ∃ t rs, runSteps s.commands.length s = .next t ∧ t.commands = [] ∧
    t.responses = s.responses ++ rs ∧ rs.length = s.commands.length

/-- Faults are precise (60_exceptions.md R72, R73): a command answered with `err = 1` has changed nothing but the one `SR`
bit of its fault, and its `data` is that fault's code. -/
def Obligations.FaultsArePrecise : Prop :=
  ∀ (s t : State) (cmd : Word) (rest : List Word) (d : Word), s.commands = cmd :: rest → step s = .next t →
    t.responses = s.responses ++ [⟨true, d⟩] →
    ∃ bit : Byte, ((d = 1 ∧ bit = 0x20#8) ∨ (d = 2 ∧ bit = 0x10#8) ∨ (d = 3 ∧ bit = 0x40#8)) ∧
      t = { s with commands := rest, sr := s.sr ||| bit, responses := s.responses ++ [⟨true, d⟩] }

/-- All flags are sticky (10_state.md R13, 60_exceptions.md R75): a step clears a fault flag only by `RESET` and an event
flag only by `RESET` or `CLRF`. -/
def Obligations.FlagsAreSticky : Prop :=
  ∀ (s t : State) (f : Flag), step s = .next t → srHas s.sr f = true → srHas t.sr f = false →
    s.commands.head? = some 0xFF00#16 ∨ (f.isEvent = true ∧ s.commands.head? = some 0x1500#16)

/-- Which command writes which piece of state (10_state.md R9, the column "written by"), and that none writes the
capacities or the host's stream. -/
def Obligations.OnlyTheListedCommandsWrite : Prop :=
  ∀ (i : Instr) (s t : State), exec i s = .next t →
    t.caps = s.caps ∧ t.commands = s.commands ∧
      (t.crc ≠ s.crc → i = .crcInit ∨ (∃ b, i = .crcUpd b) ∨ i = .reset) ∧
        (t.acc ≠ s.acc → (∃ b, i = .syncPush b) ∨ i = .syncScan ∨ i = .syncClr ∨ i = .reset) ∧
          (t.outq ≠ s.outq → i = .syncScan ∨ i = .syncPop ∨ i = .syncClr ∨ i = .reset) ∧
            (t.sr ≠ s.sr → i = .syncScan ∨ i = .clrf ∨ i = .reset ∨
              ∃ d, t.responses = s.responses ++ [⟨true, d⟩])

/-- Reads have no side effects, and the head frame stays until `SYNC.POP`, `SYNC.CLR` or `RESET` (20_memory.md R23). -/
def Obligations.ReadsHaveNoSideEffects : Prop :=
  ∀ (i : Instr) (s t : State), exec i s = .next t →
    ((i = .crcRd ∨ (∃ arg, i = .syncRdf arg) ∨ i = .syncRdal ∨ i = .syncRdfc ∨ i = .rdsr) →
      ∀ r, t.responses = s.responses ++ [r] → r.err = false →
        t = { s with responses := s.responses ++ [r] } ∧
          exec i t = .next { t with responses := t.responses ++ [r] }) ∧
      ((i ≠ .syncPop ∧ i ≠ .syncClr ∧ i ≠ .reset) → ∀ f, s.outq.head? = some f → t.outq.head? = some f)

/-- The checksum commands and all others but `RESET` share no state (20_memory.md R26 (a), 41_sync.md R56): what the
others do does not depend on `crc` and leaves it, and what the checksum commands do does not depend on `acc`, `outq` and
`SR` and leaves them. -/
def Obligations.ChecksumAndSynchronizerShareNoState : Prop :=
  ∀ (i : Instr) (s t : State), exec i s = .next t →
    ((i = .crcInit ∨ (∃ b, i = .crcUpd b) ∨ i = .crcRd) →
      t.acc = s.acc ∧ t.outq = s.outq ∧ t.sr = s.sr ∧
        ∀ (a : List Byte) (q : List Frame) (r : Byte),
          exec i { s with acc := a, outq := q, sr := r } = .next { t with acc := a, outq := q, sr := r }) ∧
      ((i ≠ .crcInit ∧ (∀ b, i ≠ .crcUpd b) ∧ i ≠ .crcRd ∧ i ≠ .reset) →
        t.crc = s.crc ∧ ∀ c : Word, exec i { s with crc := c } = .next { t with crc := c })
end

