-- ==== Sys2Proof/Laws/Frames.lean ====
section
/-! SUPPORT. What the checksum of a joined message is, where a candidate comes from, and how the marker search
unfolds. -/

namespace Sys2Proof.Machine

/-- The bytes of two messages, one after the other. -/
theorem crcBytes_append (r : Word) (a b : List Byte) : crcBytes r (a ++ b) = crcBytes (crcBytes r a) b := by
  induction a generalizing r with
  | nil => rfl
  | cons x xs ih => exact ih _

/-- One byte more. -/
theorem checksum_concat (a : List Byte) (b : Byte) : checksum (a ++ [b]) = crcByte (checksum a) b :=
  crcBytes_append _ a [b]

/-- There is a candidate exactly when there are 64 bytes, and it is the first 64 (41_sync.md R56). -/
theorem candidate_eq_some {a : List Byte} {f : Frame} :
    candidate a = some f ↔ 64 ≤ a.length ∧ f.toList = a.take 64 := by
  unfold candidate
  split
  · rename_i h
    constructor
    · rintro ⟨rfl⟩
      exact ⟨h, by simp [Vector.toList]⟩
    · rintro ⟨_, hf⟩
      rw [Option.some.injEq]
      apply Vector.toList_inj.1
      simpa [Vector.toList] using hf.symm
  · rename_i h
    exact iff_of_false (by simp) (fun e => h e.1)

/-- There is no candidate exactly when there are fewer than 64 bytes (41_sync.md R55). -/
theorem candidate_eq_none {a : List Byte} : candidate a = none ↔ a.length < 64 := by
  unfold candidate
  split <;> simp_all

/-- The marker stands at the head exactly when the first four bytes are `01 02 03 04` (30_encoding.md R28). -/
theorem beginsWithMarker_iff (s : List Byte) :
    beginsWithMarker s = true ↔ ∃ t, s = 0x01 :: 0x02 :: 0x03 :: 0x04 :: t := by
  rw [beginsWithMarker, List.isPrefixOf_iff_prefix]
  constructor
  · rintro ⟨t, rfl⟩
    exact ⟨t, rfl⟩
  · rintro ⟨t, rfl⟩
    exact ⟨t, rfl⟩

/-- The search, one byte at a time. -/
theorem findMarker_cons (b : Byte) (bs : List Byte) :
    findMarker (b :: bs) = if beginsWithMarker (b :: bs) then some 0 else (findMarker bs).map (· + 1) := rfl

/-- What the search finds: the rest of the sequence from there begins with the marker. -/
theorem findMarker_drop {s : List Byte} {p : Nat} (h : findMarker s = some p) :
    beginsWithMarker (s.drop p) = true := by
  induction s generalizing p with
  | nil => simp [findMarker] at h
  | cons b bs ih =>
    rw [findMarker_cons] at h
    split at h
    · rename_i hb
      cases h
      simpa using hb
    · simp only [Option.map_eq_some_iff] at h
      obtain ⟨q, hq, rfl⟩ := h
      simpa using ih hq

end Sys2Proof.Machine
end

