-- ==== Sys2Proof/Laws/Flags.lean ====
section
/-! SUPPORT. What setting and clearing bits of `SR` does to each flag and to the reserved bit (10_state.md R13). -/

namespace Sys2Proof.Machine

/-- Setting a flag sets that flag and no other. -/
@[simp] theorem srHas_srSet (sr : Byte) (f g : Flag) : srHas (srSet sr f) g = (srHas sr g || decide (f = g)) := by
  cases f <;> cases g <;> simp [srHas, srSet, Flag.bit]

/-- Setting a flag leaves the reserved bit. -/
@[simp] theorem srSet_reserved (sr : Byte) (f : Flag) : srReserved (srSet sr f) = srReserved sr := by
  cases f <;> simp [srReserved, srSet, Flag.bit]

/-- Clearing the events keeps exactly the fault flags. -/
@[simp] theorem srHas_srClearEvents (sr : Byte) (g : Flag) :
    srHas (srClearEvents sr) g = (srHas sr g && !g.isEvent) := by
  cases g <;> simp [srHas, srClearEvents, Flag.bit, Flag.isEvent]

/-- Clearing the events leaves the reserved bit. -/
@[simp] theorem srClearEvents_reserved (sr : Byte) : srReserved (srClearEvents sr) = srReserved sr := by
  simp [srReserved, srClearEvents]

/-- No flag is set in the reset value. -/
@[simp] theorem srHas_zero (g : Flag) : srHas 0#8 g = false := by
  cases g <;> decide

/-- The reserved bit of the reset value is 0. -/
@[simp] theorem srReserved_zero : srReserved 0#8 = false := rfl

/-- `SR` is its seven flags and its reserved bit. -/
theorem sr_ext {a b : Byte} (h : ∀ g, srHas a g = srHas b g) (h7 : srReserved a = srReserved b) : a = b := by
  apply BitVec.eq_of_getLsbD_eq
  intro i hi
  have h0 := h .nomark
  have h1 := h .resync
  have h2 := h .badcrc
  have h3 := h .badmark
  have h4 := h .ovf
  have h5 := h .ill
  have h6 := h .empty
  simp only [srHas, srReserved, Flag.bit] at h0 h1 h2 h3 h4 h5 h6 h7
  interval_cases i <;> assumption

end Sys2Proof.Machine
end

