-- ==== Sys2Proof/Laws/State.lean ====
section
/-! SUPPORT. Every field of the state after every named update, so that no proof unfolds a record update. -/

namespace Sys2Proof.Machine

variable (s : State)

@[simp] theorem respond_crc (err : Bool) (data : Word) : (respond err data s).crc = s.crc := rfl
@[simp] theorem respond_acc (err : Bool) (data : Word) : (respond err data s).acc = s.acc := rfl
@[simp] theorem respond_outq (err : Bool) (data : Word) : (respond err data s).outq = s.outq := rfl
@[simp] theorem respond_sr (err : Bool) (data : Word) : (respond err data s).sr = s.sr := rfl
@[simp] theorem respond_caps (err : Bool) (data : Word) : (respond err data s).caps = s.caps := rfl
@[simp] theorem respond_commands (err : Bool) (data : Word) : (respond err data s).commands = s.commands := rfl
@[simp] theorem respond_responses (err : Bool) (data : Word) : (respond err data s).responses = s.responses ++ [⟨err, data⟩] := rfl

@[simp] theorem setFlag_crc (f : Flag) : (setFlag f s).crc = s.crc := rfl
@[simp] theorem setFlag_acc (f : Flag) : (setFlag f s).acc = s.acc := rfl
@[simp] theorem setFlag_outq (f : Flag) : (setFlag f s).outq = s.outq := rfl
@[simp] theorem setFlag_sr (f : Flag) : (setFlag f s).sr = srSet s.sr f := rfl
@[simp] theorem setFlag_caps (f : Flag) : (setFlag f s).caps = s.caps := rfl
@[simp] theorem setFlag_commands (f : Flag) : (setFlag f s).commands = s.commands := rfl
@[simp] theorem setFlag_responses (f : Flag) : (setFlag f s).responses = s.responses := rfl

@[simp] theorem raise_crc (f : BlockFault) : (raise f s).crc = s.crc := rfl
@[simp] theorem raise_acc (f : BlockFault) : (raise f s).acc = s.acc := rfl
@[simp] theorem raise_outq (f : BlockFault) : (raise f s).outq = s.outq := rfl
@[simp] theorem raise_sr (f : BlockFault) : (raise f s).sr = srSet s.sr f.flag := rfl
@[simp] theorem raise_caps (f : BlockFault) : (raise f s).caps = s.caps := rfl
@[simp] theorem raise_commands (f : BlockFault) : (raise f s).commands = s.commands := rfl
@[simp] theorem raise_responses (f : BlockFault) : (raise f s).responses = s.responses ++ [⟨true, f.code⟩] := rfl

@[simp] theorem accAppend_crc (b : Byte) : (accAppend b s).crc = s.crc := rfl
@[simp] theorem accAppend_acc (b : Byte) : (accAppend b s).acc = s.acc ++ [b] := rfl
@[simp] theorem accAppend_outq (b : Byte) : (accAppend b s).outq = s.outq := rfl
@[simp] theorem accAppend_sr (b : Byte) : (accAppend b s).sr = s.sr := rfl
@[simp] theorem accAppend_caps (b : Byte) : (accAppend b s).caps = s.caps := rfl
@[simp] theorem accAppend_commands (b : Byte) : (accAppend b s).commands = s.commands := rfl
@[simp] theorem accAppend_responses (b : Byte) : (accAppend b s).responses = s.responses := rfl

@[simp] theorem accDrop_crc (n : Nat) : (accDrop n s).crc = s.crc := rfl
@[simp] theorem accDrop_acc (n : Nat) : (accDrop n s).acc = s.acc.drop n := rfl
@[simp] theorem accDrop_outq (n : Nat) : (accDrop n s).outq = s.outq := rfl
@[simp] theorem accDrop_sr (n : Nat) : (accDrop n s).sr = s.sr := rfl
@[simp] theorem accDrop_caps (n : Nat) : (accDrop n s).caps = s.caps := rfl
@[simp] theorem accDrop_commands (n : Nat) : (accDrop n s).commands = s.commands := rfl
@[simp] theorem accDrop_responses (n : Nat) : (accDrop n s).responses = s.responses := rfl

@[simp] theorem accClear_crc : (accClear s).crc = s.crc := rfl
@[simp] theorem accClear_acc : (accClear s).acc = [] := rfl
@[simp] theorem accClear_outq : (accClear s).outq = s.outq := rfl
@[simp] theorem accClear_sr : (accClear s).sr = s.sr := rfl
@[simp] theorem accClear_caps : (accClear s).caps = s.caps := rfl
@[simp] theorem accClear_commands : (accClear s).commands = s.commands := rfl
@[simp] theorem accClear_responses : (accClear s).responses = s.responses := rfl

@[simp] theorem outqAppend_crc (f : Frame) : (outqAppend f s).crc = s.crc := rfl
@[simp] theorem outqAppend_acc (f : Frame) : (outqAppend f s).acc = s.acc := rfl
@[simp] theorem outqAppend_outq (f : Frame) : (outqAppend f s).outq = s.outq ++ [f] := rfl
@[simp] theorem outqAppend_sr (f : Frame) : (outqAppend f s).sr = s.sr := rfl
@[simp] theorem outqAppend_caps (f : Frame) : (outqAppend f s).caps = s.caps := rfl
@[simp] theorem outqAppend_commands (f : Frame) : (outqAppend f s).commands = s.commands := rfl
@[simp] theorem outqAppend_responses (f : Frame) : (outqAppend f s).responses = s.responses := rfl

@[simp] theorem outqDrop_crc : (outqDrop s).crc = s.crc := rfl
@[simp] theorem outqDrop_acc : (outqDrop s).acc = s.acc := rfl
@[simp] theorem outqDrop_outq : (outqDrop s).outq = s.outq.drop 1 := rfl
@[simp] theorem outqDrop_sr : (outqDrop s).sr = s.sr := rfl
@[simp] theorem outqDrop_caps : (outqDrop s).caps = s.caps := rfl
@[simp] theorem outqDrop_commands : (outqDrop s).commands = s.commands := rfl
@[simp] theorem outqDrop_responses : (outqDrop s).responses = s.responses := rfl

@[simp] theorem outqClear_crc : (outqClear s).crc = s.crc := rfl
@[simp] theorem outqClear_acc : (outqClear s).acc = s.acc := rfl
@[simp] theorem outqClear_outq : (outqClear s).outq = [] := rfl
@[simp] theorem outqClear_sr : (outqClear s).sr = s.sr := rfl
@[simp] theorem outqClear_caps : (outqClear s).caps = s.caps := rfl
@[simp] theorem outqClear_commands : (outqClear s).commands = s.commands := rfl
@[simp] theorem outqClear_responses : (outqClear s).responses = s.responses := rfl

@[simp] theorem setCrc_crc (v : Word) : (setCrc v s).crc = v := rfl
@[simp] theorem setCrc_acc (v : Word) : (setCrc v s).acc = s.acc := rfl
@[simp] theorem setCrc_outq (v : Word) : (setCrc v s).outq = s.outq := rfl
@[simp] theorem setCrc_sr (v : Word) : (setCrc v s).sr = s.sr := rfl
@[simp] theorem setCrc_caps (v : Word) : (setCrc v s).caps = s.caps := rfl
@[simp] theorem setCrc_commands (v : Word) : (setCrc v s).commands = s.commands := rfl
@[simp] theorem setCrc_responses (v : Word) : (setCrc v s).responses = s.responses := rfl

@[simp] theorem resetBlock_crc : (resetBlock s).crc = 0xFFFF#16 := rfl
@[simp] theorem resetBlock_acc : (resetBlock s).acc = [] := rfl
@[simp] theorem resetBlock_outq : (resetBlock s).outq = [] := rfl
@[simp] theorem resetBlock_sr : (resetBlock s).sr = 0#8 := rfl
@[simp] theorem resetBlock_caps : (resetBlock s).caps = s.caps := rfl
@[simp] theorem resetBlock_commands : (resetBlock s).commands = s.commands := rfl
@[simp] theorem resetBlock_responses : (resetBlock s).responses = s.responses := rfl

@[simp] theorem presentNext_crc (cmd : Word) : (presentNext cmd s).crc = s.crc := rfl
@[simp] theorem presentNext_acc (cmd : Word) : (presentNext cmd s).acc = s.acc := rfl
@[simp] theorem presentNext_outq (cmd : Word) : (presentNext cmd s).outq = s.outq := rfl
@[simp] theorem presentNext_sr (cmd : Word) : (presentNext cmd s).sr = s.sr := rfl
@[simp] theorem presentNext_caps (cmd : Word) : (presentNext cmd s).caps = s.caps := rfl
@[simp] theorem presentNext_commands (cmd : Word) : (presentNext cmd s).commands = cmd :: s.commands := rfl
@[simp] theorem presentNext_responses (cmd : Word) : (presentNext cmd s).responses = s.responses := rfl

end Sys2Proof.Machine
end

