-- ==== Sys2Proof/Laws/Ops.lean ====
section
/-! SUPPORT. What each shared operation can do, once: capacities, faults, the frame window, and that every storage
operation keeps both spaces within their capacities. -/

namespace Sys2Proof.Machine

/-- `reaches` says that a length equals the capacity `min + spare`. -/
theorem reaches_iff (min : Nat) (spare : Sys2Proof.Capacity) (n : Nat) :
    reaches min spare n = true ↔ spare.above min = .finite n := by
  cases spare with
  | finite k =>
    simp only [reaches, Capacity.above, Capacity.finite.injEq]
    split
    · constructor
      · simp
      · omega
    · simp only [beq_iff_eq]; omega
  | inf => simp [reaches, Capacity.above]

/-- `accFull` is R60's test `len(acc) = ACC_CAP`. -/
theorem accFull_iff (s : State) : accFull s = true ↔ s.caps.accCap = .finite s.acc.length :=
  reaches_iff _ _ _

/-- `outqFull` is R58's test `len(outq) = OUTQ_CAP`. -/
theorem outqFull_iff (s : State) : outqFull s = true ↔ s.caps.outqCap = .finite s.outq.length :=
  reaches_iff _ _ _

/-- An accumulator of fewer than 128 bytes is not full, whatever the capacity (R4). -/
theorem accFull_of_short {s : State} (h : s.acc.length < Constants.accCapMin) : accFull s = false := by
  simp [accFull, reaches, h]

/-- Raising a fault sets its one `SR` bit and responds `(1, code)`, and does nothing else (60_exceptions.md R73). -/
theorem raise_eq (f : BlockFault) (s : State) :
    raise f s = { s with sr := srSet s.sr f.flag, responses := s.responses ++ [⟨true, f.code⟩] } := rfl

/-- The frame window reads byte `i` of the head frame, and is absent exactly while no frame waits (20_memory.md R17). -/
theorem frmRead_eq (i : Fin Constants.frameLen) (s : State) : frmRead i s = s.outq.head?.map (fun f => f.get i) := by
  cases h : s.outq <;> simp [frmRead, h]

/-- The index an operand carries: its value when below 64, none otherwise. -/
theorem frameIndex_eq_some {arg : Byte} {i : Fin Constants.frameLen} :
    frameIndex arg = some i ↔ arg.toNat = i.val := by
  unfold frameIndex
  split
  · rw [Option.some.injEq, Fin.ext_iff]
  · have := i.isLt
    simp only [reduceCtorEq, false_iff]
    omega

/-- An operand carries no index exactly when it is 64 or more. -/
theorem frameIndex_eq_none {arg : Byte} : frameIndex arg = none ↔ 64 ≤ arg.toNat := by
  unfold frameIndex
  split <;> simp_all

/-- A well-formed `SYNC.RDF` carries an index below 64. -/
theorem wellFormed_rdf_iff (arg : Byte) : (Instr.syncRdf arg).wellFormed = true ↔ arg.toNat < 64 := by
  revert arg
  decide

/-- `Memory.wf` is the two bounds. -/
theorem memory_wf_iff (s : State) :
    Memory.wf s = true ↔
      capAllows s.caps.accCap s.acc.length = true ∧ capAllows s.caps.outqCap s.outq.length = true := by
  simp [Memory.wf]

/-- A smaller length is within a capacity too. -/
theorem capAllows_mono {c : Sys2Proof.Capacity} {m n : Nat} (h : m ≤ n) (hn : capAllows c n = true) :
    capAllows c m = true := by
  cases c <;> simp_all [capAllows]; omega

/-- One more is within a capacity that is not reached. -/
theorem capAllows_succ {c : Sys2Proof.Capacity} {n : Nat} (h : capAllows c n = true) (hne : c ≠ .finite n) :
    capAllows c (n + 1) = true := by
  cases c with
  | finite k => simp_all [capAllows]; omega
  | inf => rfl

/-- Nothing stored is within every capacity. -/
@[simp] theorem capAllows_zero (c : Sys2Proof.Capacity) : capAllows c 0 = true := by cases c <;> simp [capAllows]

/-- Storage that fits before fits after a change that keeps the capacities and lengthens neither space. -/
theorem memory_wf_of_le {s t : State} (hc : t.caps = s.caps) (ha : t.acc.length ≤ s.acc.length)
    (hq : t.outq.length ≤ s.outq.length) (h : Memory.wf s = true) : Memory.wf t = true := by
  rw [memory_wf_iff] at *
  rw [hc]
  exact ⟨capAllows_mono ha h.1, capAllows_mono hq h.2⟩

/-- A push onto an accumulator that is not full keeps the storage within its capacities. -/
theorem memory_wf_accAppend {s : State} (b : Byte) (hf : accFull s = false) (h : Memory.wf s = true) :
    Memory.wf (accAppend b s) = true := by
  rw [memory_wf_iff] at *
  refine ⟨?_, by simpa using h.2⟩
  have hne : s.caps.accCap ≠ .finite s.acc.length := fun e => by
    rw [(accFull_iff s).2 e] at hf; exact absurd hf (by simp)
  simpa using capAllows_succ h.1 hne

/-- Emitting into a queue that is not full keeps the storage within its capacities. -/
theorem memory_wf_outqAppend {s : State} (f : Frame) (hf : outqFull s = false) (h : Memory.wf s = true) :
    Memory.wf (outqAppend f s) = true := by
  rw [memory_wf_iff] at *
  refine ⟨by simpa using h.1, ?_⟩
  have hne : s.caps.outqCap ≠ .finite s.outq.length := fun e => by
    rw [(outqFull_iff s).2 e] at hf; exact absurd hf (by simp)
  simpa using capAllows_succ h.2 hne

/-- Discarding from the head of the accumulator keeps them. -/
theorem memory_wf_accDrop {s : State} (n : Nat) (h : Memory.wf s = true) : Memory.wf (accDrop n s) = true :=
  memory_wf_of_le (s := s) rfl (by simp) le_rfl h

/-- Emptying the accumulator keeps them. -/
theorem memory_wf_accClear {s : State} (h : Memory.wf s = true) : Memory.wf (accClear s) = true :=
  memory_wf_of_le (s := s) rfl (by simp) le_rfl h

/-- Removing the head frame keeps them. -/
theorem memory_wf_outqDrop {s : State} (h : Memory.wf s = true) : Memory.wf (outqDrop s) = true :=
  memory_wf_of_le (s := s) rfl le_rfl (by simp) h

/-- Emptying the queue keeps them. -/
theorem memory_wf_outqClear {s : State} (h : Memory.wf s = true) : Memory.wf (outqClear s) = true :=
  memory_wf_of_le (s := s) rfl le_rfl (by simp) h

/-- Resetting the block gives storage within every capacity. -/
theorem memory_wf_resetBlock (s : State) : Memory.wf (resetBlock s) = true := by
  rw [memory_wf_iff]; simp

/-- The reset state's storage is within every capacity. -/
theorem memory_wf_reset : Memory.wf State.reset = true := by
  rw [memory_wf_iff]
  exact ⟨capAllows_zero _, capAllows_zero _⟩

end Sys2Proof.Machine
end

