-- ==== Sys2Proof/Laws/Sync.lean ====
section
/-! SUPPORT. What one iteration of `scan` can do, the loop's own equation, and the induction over its iterations that
later proofs cite instead of unfolding it. -/

namespace Sys2Proof.Machine

/-- Path A (41_sync.md R53): nothing on an empty accumulator; else `NOMARK`, and 10 bytes or all of them go. -/
theorem noMarkerDiscard_cases (s : State) :
    (s.acc = [] ∧ noMarkerDiscard s = s) ∨
      (s.acc ≠ [] ∧ s.acc.length ≤ 64 ∧ noMarkerDiscard s = setFlag .nomark (accClear s)) ∨
        (64 < s.acc.length ∧ noMarkerDiscard s = setFlag .nomark (accDrop 10 s)) := by
  unfold noMarkerDiscard
  split
  · rename_i h
    exact .inl ⟨List.length_eq_zero_iff.1 h, rfl⟩
  · rename_i h
    have hne : s.acc ≠ [] := fun e => h (by simp [e])
    split
    · rename_i h'
      exact .inr (.inr ⟨h', rfl⟩)
    · rename_i h'
      exact .inr (.inl ⟨hne, by simpa using h', rfl⟩)

/-- Resync (R54): the state with the bytes ahead of the marker discarded, and the flag set when there are any. -/
theorem resync_cases (p : Nat) (s : State) :
    (p = 0 ∧ resync p s = s) ∨ (0 < p ∧ resync p s = setFlag .resync (accDrop p s)) := by
  unfold resync
  split
  · exact .inl ⟨‹_›, rfl⟩
  · exact .inr ⟨by omega, rfl⟩

/-- In both cases the accumulator loses its first `p` bytes. -/
@[simp] theorem resync_acc (p : Nat) (s : State) : (resync p s).acc = s.acc.drop p := by
  rcases resync_cases p s with ⟨rfl, h⟩ | ⟨_, h⟩ <;> simp [h]

/-- Everything an iteration can do (R52): path A, B, C or E and D. -/
theorem scanPass_cases (s : State) :
    (findMarker s.acc = none ∧ scanPass s = .stop .noMarker (noMarkerDiscard s)) ∨
      ∃ p, findMarker s.acc = some p ∧
        ((s.acc.length - p < 64 ∧ scanPass s = .stop .waitBytes (resync p s)) ∨
          ∃ cand : Frame, 64 ≤ s.acc.length - p ∧ cand.toList = (s.acc.drop p).take 64 ∧ markerOk cand = true ∧
            ((crcOk cand = false ∧ scanPass s = .again (dropBad .badcrc (resync p s))) ∨
              (crcOk cand = true ∧ outqFull (resync p s) = true ∧ scanPass s = .stop .outFull (resync p s)) ∨
                (crcOk cand = true ∧ outqFull (resync p s) = false ∧
                  scanPass s = .again (accDrop 64 (outqAppend cand (resync p s)))))) := by
  cases hm : findMarker s.acc with
  | none => exact .inl ⟨rfl, by simp [scanPass, hm]⟩
  | some p =>
    refine .inr ⟨p, rfl, ?_⟩
    have hp : scanPass s = alignedPass (resync p s) := by simp [scanPass, hm]
    rw [hp, alignedPass]
    cases hc : candidate (resync p s).acc with
    | none =>
      refine .inl ⟨?_, rfl⟩
      have := candidate_eq_none.1 hc
      simpa using this
    | some cand =>
      obtain ⟨hl, ht⟩ := candidate_eq_some.1 hc
      rw [resync_acc] at hl ht
      have hmk : markerOk cand = true := by
        obtain ⟨t, e⟩ := (beginsWithMarker_iff _).1 (findMarker_drop hm)
        rw [markerOk, ht, e, beginsWithMarker_iff]
        exact ⟨t.take 60, rfl⟩
      refine .inr ⟨cand, by simpa using hl, ht, hmk, ?_⟩
      simp only [judge, hmk, Bool.true_eq_false, if_false]
      cases hk : crcOk cand with
      | false => exact .inl ⟨rfl, rfl⟩
      | true =>
        refine .inr ?_
        cases hq : outqFull (resync p s) with
        | true => exact .inl ⟨rfl, rfl, rfl⟩
        | false => exact .inr ⟨rfl, rfl, rfl⟩

/-- An iteration that goes round again has made the accumulator shorter (R59, "Termination"). -/
theorem scanPass_again_shorter {s t : State} (h : scanPass s = .again t) : t.acc.length < s.acc.length := by
  rcases scanPass_cases s with ⟨_, e⟩ | ⟨p, _, ⟨_, e⟩ | ⟨cand, hl, _, _, ⟨_, e⟩ | ⟨_, _, e⟩ | ⟨_, _, e⟩⟩⟩
  · simp [e] at h
  · simp [e] at h
  · rw [e] at h
    cases h
    simp only [dropBad, accDrop_acc, setFlag_acc, resync_acc, List.length_drop, Constants.badDrop]
    omega
  · simp [e] at h
  · rw [e] at h
    cases h
    simp only [accDrop_acc, outqAppend_acc, resync_acc, List.length_drop]
    omega

/-- Any number of iterations above the accumulator's length gives the same result. -/
theorem scanLoop_enough {n m : Nat} {s : State} (hn : s.acc.length < n) (hm : s.acc.length < m) :
    scanLoop n s = scanLoop m s := by
  induction n generalizing m s with
  | zero => omega
  | succ n ih =>
    cases m with
    | zero => omega
    | succ m =>
      simp only [scanLoop]
      cases h : scanPass s with
      | stop c t => rfl
      | again t =>
        have := scanPass_again_shorter h
        exact ih (by omega) (by omega)

/-- The loop's own equation (R59): an iteration either returns or `scan` starts again from what it left. -/
theorem scan_unfold (s : State) :
    scan s = match scanPass s with
      | .stop code t => (code, t)
      | .again t => scan t := by
  rw [scan, scanLoop]
  cases h : scanPass s with
  | stop c t => rfl
  | again t =>
    have := scanPass_again_shorter h
    exact scanLoop_enough (by omega) (by omega)

/-- `scan` of a state whose iteration returns. -/
theorem scan_of_stop {s t : State} {code : StopCode} (h : scanPass s = .stop code t) : scan s = (code, t) := by
  rw [scan_unfold, h]

/-- `scan` of a state whose iteration goes round again. -/
theorem scan_of_again {s t : State} (h : scanPass s = .again t) : scan s = scan t := by
  rw [scan_unfold, h]

/-- Induction over the iterations: what holds of a state's result when its iteration returns, and passes back from the
next iteration's state, holds of every state's result. -/
theorem scan_induction {motive : State → StopCode × State → Prop}
    (stop : ∀ s code t, scanPass s = .stop code t → motive s (code, t))
    (again : ∀ s t, scanPass s = .again t → motive t (scan t) → motive s (scan s)) (s : State) :
    motive s (scan s) := by
  suffices h : ∀ n, ∀ s : State, s.acc.length < n → motive s (scan s) from h _ s (Nat.lt_succ_self _)
  intro n
  induction n with
  | zero => intro s h; omega
  | succ n ih =>
    intro s hs
    cases h : scanPass s with
    | stop c t => rw [scan_of_stop h]; exact stop s c t h
    | again t =>
      exact again s t h (ih t (by have := scanPass_again_shorter h; omega))

/-- A property that every iteration keeps holds of the state `scan` leaves. -/
theorem scan_keeps {P : State → Prop} (stop : ∀ u code t, P u → scanPass u = .stop code t → P t)
    (again : ∀ u t, P u → scanPass u = .again t → P t) {s : State} (h : P s) : P (scan s).2 :=
  scan_induction (motive := fun s r => P s → P r.2) (fun u c t e hu => stop u c t hu e)
    (fun u t e ih hu => by rw [scan_of_again e]; exact ih (again u t hu e)) s h

/-- The accumulator is the only thing that says whether path A is taken, and an empty one changes nothing. -/
theorem scan_of_empty {s : State} (h : s.acc = []) : scan s = (.noMarker, s) := by
  apply scan_of_stop
  simp [scanPass, h, findMarker, noMarkerDiscard]

end Sys2Proof.Machine
end

