-- ==== Sys2Proof/Laws/Step.lean ====
section
/-! SUPPORT. What one step can be: no step stops the machine, and a step is idle or takes one command. -/

namespace Sys2Proof.Machine

/-- Every meaning answers a next state: a fault of the block is one too (60_exceptions.md R73). -/
theorem exec_total (i : Instr) (s : State) : ∃ t, exec i s = .next t := by
  cases i with
  | crcInit => exact ⟨_, rfl⟩
  | crcUpd b => exact ⟨_, rfl⟩
  | crcRd => exact ⟨_, rfl⟩
  | syncPush b =>
    simp only [exec, execSyncPush]
    split <;> exact ⟨_, rfl⟩
  | syncScan => exact ⟨_, rfl⟩
  | syncRdf arg =>
    simp only [exec, execSyncRdf]
    split
    · exact ⟨_, rfl⟩
    · split <;> exact ⟨_, rfl⟩
  | syncPop =>
    simp only [exec, execSyncPop]
    split <;> exact ⟨_, rfl⟩
  | rdsr => exact ⟨_, rfl⟩
  | clrf => exact ⟨_, rfl⟩
  | syncRdal => exact ⟨_, rfl⟩
  | syncRdfc => exact ⟨_, rfl⟩
  | syncClr => exact ⟨_, rfl⟩
  | reset => exact ⟨_, rfl⟩

/-- A word taken decodes to a command, which is executed, or is reserved, which raises `IllegalCommand`. -/
theorem runWord_cases (cmd : Word) (s : State) :
    (∃ i, decode cmd = .ok i ∧ runWord cmd s = exec i s) ∨
      ∃ e, decode cmd = .error e ∧ runWord cmd s = .next (raise .illegalCommand s) := by
  unfold runWord
  cases h : decode cmd with
  | ok i => exact .inl ⟨i, rfl, rfl⟩
  | error e => exact .inr ⟨e, rfl, rfl⟩

/-- A step with no word presented. -/
theorem step_idle {s : State} (h : s.commands = []) : step s = .next s := by
  simp [step, takeCommand, h]

/-- A step with a word presented. -/
theorem step_command {s : State} {cmd : Word} {rest : List Word} (h : s.commands = cmd :: rest) :
    step s = runWord cmd { s with commands := rest } := by
  simp [step, takeCommand, h]

/-- What a push does: it faults on a full accumulator, and appends otherwise (41_sync.md R60). -/
theorem execSyncPush_cases (b : Byte) (s : State) :
    (accFull s = true ∧ exec (.syncPush b) s = .next (raise .accOverflow s)) ∨
      (accFull s = false ∧ exec (.syncPush b) s = .next (respond false 0 (accAppend b s))) := by
  cases h : accFull s with
  | true => exact .inl ⟨rfl, by simp [exec, execSyncPush, h]⟩
  | false => exact .inr ⟨rfl, by simp [exec, execSyncPush, h]⟩

/-- What a read of the frame window does (41_sync.md R62, 60_exceptions.md R74). -/
theorem execSyncRdf_cases (arg : Byte) (s : State) :
    (64 ≤ arg.toNat ∧ exec (.syncRdf arg) s = .next (raise .illegalCommand s)) ∨
      (arg.toNat < 64 ∧ s.outq = [] ∧ exec (.syncRdf arg) s = .next (raise .queueEmpty s)) ∨
        ∃ f fs, ∃ i : Fin 64, arg.toNat = i.val ∧ s.outq = f :: fs ∧
          exec (.syncRdf arg) s = .next (respond false (zext16 (f.get i)) s) := by
  simp only [exec, execSyncRdf]
  cases hi : frameIndex arg with
  | none => exact .inl ⟨frameIndex_eq_none.1 hi, rfl⟩
  | some i =>
    have he := frameIndex_eq_some.1 hi
    refine .inr ?_
    cases hq : s.outq with
    | nil =>
      have hf : frmRead i s = none := by simp [frmRead, hq]
      exact .inl ⟨by rw [he]; exact i.isLt, rfl, by simp [hf]⟩
    | cons f fs =>
      have hf : frmRead i s = some (f.get i) := by simp [frmRead, hq]
      exact .inr ⟨f, fs, i, he, rfl, by simp [hf]⟩

/-- What a pop does (41_sync.md R63). -/
theorem execSyncPop_cases (s : State) :
    (s.outq = [] ∧ exec .syncPop s = .next (raise .queueEmpty s)) ∨
      (s.outq ≠ [] ∧ exec .syncPop s = .next (respond false 0 (outqDrop s))) := by
  simp only [exec, execSyncPop]
  split
  · rename_i h
    exact .inl ⟨List.length_eq_zero_iff.1 h, rfl⟩
  · rename_i h
    exact .inr ⟨fun e => h (by simp [e]), rfl⟩

end Sys2Proof.Machine
end

