-- ==== Sys2Proof/Laws/Run.lean ====
section
/-! SUPPORT. Sequences of commands and of steps: their equations, and that they are the host's own runs. -/

namespace Sys2Proof.Machine

/-- No command. -/
@[simp] theorem execAll_nil (s : State) : execAll [] s = .next s := rfl

/-- One command, then the rest. -/
theorem execAll_cons_of_next {i : Instr} {is : List Instr} {s t : State} (h : exec i s = .next t) :
    execAll (i :: is) s = execAll is t := by
  rw [execAll, h]

/-- One sequence, then another. -/
theorem execAll_append_of_next {is js : List Instr} {s t : State} (h : execAll is s = .next t) :
    execAll (is ++ js) s = execAll js t := by
  induction is generalizing s with
  | nil =>
    cases h
    rfl
  | cons i is ih =>
    obtain ⟨u, hu⟩ := exec_total i s
    rw [execAll_cons_of_next hu] at h
    rw [List.cons_append, execAll_cons_of_next hu]
    exact ih h

/-- A sequence of commands always ends in a next state. -/
theorem execAll_total (is : List Instr) (s : State) : ∃ t, execAll is s = .next t := by
  induction is generalizing s with
  | nil => exact ⟨s, rfl⟩
  | cons i is ih =>
    obtain ⟨u, hu⟩ := exec_total i s
    rw [execAll_cons_of_next hu]
    exact ih u

/-- No step. -/
@[simp] theorem runSteps_zero (s : State) : runSteps 0 s = .next s := rfl

/-- One step, then the rest. -/
theorem runSteps_succ_of_next {k : Nat} {s t : State} (h : step s = .next t) :
    runSteps (k + 1) s = runSteps k t := by
  rw [runSteps, h]

/-- A host's run whose first step gives a next state. -/
theorem hostRun_succ_of_next (M : Host.Core) {k : Nat} {s t : M.State} (h : M.step s = .next t) :
    Host.Core.run M (k + 1) s = Host.Core.run M k t := by
  rw [Host.Core.run, h]

/-- Every step answers a next state: the block is never halted (60_exceptions.md R73). -/
theorem step_total (s : State) : ∃ t, step s = .next t := by
  cases h : s.commands with
  | nil => exact ⟨s, step_idle h⟩
  | cons cmd rest =>
    rw [step_command h]
    rcases runWord_cases cmd { s with commands := rest } with ⟨i, _, e⟩ | ⟨_, _, e⟩
    · rw [e]
      exact exec_total i _
    · exact ⟨_, e⟩

/-- `runSteps` is the host's own run of the machine. -/
theorem runSteps_eq_core_run (k : Nat) (s : State) : runSteps k s = Host.Core.run core k s := by
  induction k generalizing s with
  | zero => rfl
  | succ k ih =>
    obtain ⟨t, ht⟩ := step_total s
    rw [runSteps_succ_of_next ht, ih t]
    exact (hostRun_succ_of_next core ht).symm

end Sys2Proof.Machine
end

