-- ==== Sys2Proof/Laws/Cuts.lean ====
section
/-! SUPPORT. Where deliveries are cut (41_sync.md R68): the equations of the predicates of Safety.lean, and checks that
the kernel can evaluate, each with its proof. -/

namespace Sys2Proof.Machine

/-- What begins in an iteration after this one begins in an iteration of the `scan` from here. -/
theorem iterationBegins_of_again {s t u : State} (h : scanPass s = .again t) (hu : IterationBegins t u) :
    IterationBegins s u := by
  induction hu with
  | first => exact .later .first h
  | later _ e ih => exact .later ih e

/-- An iteration of a `scan` is its first, or one of the `scan` from what the first left. -/
theorem iterationBegins_cases {s u : State} (hu : IterationBegins s u) :
    u = s ∨ ∃ t, scanPass s = .again t ∧ IterationBegins t u := by
  induction hu with
  | first => exact .inl rfl
  | later _ e ih =>
    rcases ih with rfl | ⟨t, h, ht⟩
    · exact .inr ⟨_, e, .first⟩
    · exact .inr ⟨t, h, .later ht e⟩

/-- A `scan` whose first iteration returns loses a marker's beginning only in that iteration. -/
theorem losesNoMarkerBeginning_of_stop {s t : State} {code : StopCode} (h : scanPass s = .stop code t) :
    LosesNoMarkerBeginning s ↔
      (findMarker s.acc = none → s.acc.length ≤ 64 → endsInMarkerBeginning s.acc = false) := by
  refine ⟨fun hs => hs s .first, fun hs u hu => ?_⟩
  rcases iterationBegins_cases hu with rfl | ⟨v, e, _⟩
  · exact hs
  · rw [h] at e
    cases e

/-- A `scan` whose first iteration goes round again loses what the `scan` from there loses. -/
theorem losesNoMarkerBeginning_of_again {s t : State} (h : scanPass s = .again t) :
    LosesNoMarkerBeginning s ↔ LosesNoMarkerBeginning t := by
  refine ⟨fun hs u hu => hs u (iterationBegins_of_again h hu), fun ht u hu hm => ?_⟩
  rcases iterationBegins_cases hu with rfl | ⟨v, e, hv⟩
  · simp [scanPass, hm] at h
  · rw [h] at e
    cases e
    exact ht u hv hm

/-- `LosesNoMarkerBeginning`, looked at in at most `n` iterations. -/
def scanKeepsBeginnings : Nat → State → Bool
  | 0, _ => false
  | n + 1, s =>
    match scanPass s with
    | .stop _ _ => (findMarker s.acc).isSome || decide (64 < s.acc.length) || !endsInMarkerBeginning s.acc
    | .again t => scanKeepsBeginnings n t

/-- What the check answers is so. -/
theorem scanKeepsBeginnings_sound {n : Nat} {s : State} (h : scanKeepsBeginnings n s = true) :
    LosesNoMarkerBeginning s := by
  induction n generalizing s with
  | zero => cases h
  | succ n ih =>
    rw [scanKeepsBeginnings] at h
    cases e : scanPass s with
    | stop code t =>
      rw [losesNoMarkerBeginning_of_stop e]
      intro hm hl
      simpa [e, hm, Nat.not_lt.2 hl] using h
    | again t =>
      rw [losesNoMarkerBeginning_of_again e]
      exact ih (by simpa [e] using h)

/-- What the two predicates ask of one command. -/
def commandCheck (s : State) : Instr → Bool
  | .syncPush _ => !accFull s
  | .syncScan => scanKeepsBeginnings (s.acc.length + 1) s && decide ((scan s).1 ≠ .outFull)
  | _ => true

/-- `CutsAreSafe` and `ReachesNoCapacity` together, command by command. -/
def cutsCheck : List Instr → State → Bool
  | [], _ => true
  | i :: is, s =>
    commandCheck s i &&
      match exec i s with
      | .next t => cutsCheck is t
      | .fault _ => false
      | .refused _ => false

/-- What the check answers is so. -/
theorem cutsCheck_sound {is : List Instr} {s : State} (h : cutsCheck is s = true) :
    CutsAreSafe is s ∧ ReachesNoCapacity is s := by
  induction is generalizing s with
  | nil => exact ⟨trivial, trivial⟩
  | cons i is ih =>
    obtain ⟨u, hu⟩ := exec_total i s
    rw [cutsCheck, Bool.and_eq_true, hu] at h
    obtain ⟨hi, hr⟩ := h
    obtain ⟨h1, h2⟩ := ih hr
    have next : ∀ t, exec i s = .next t → t = u := fun t ht => by
      rw [hu] at ht
      cases ht
      rfl
    refine ⟨⟨?_, fun t ht => next t ht ▸ h1⟩, ?_, ?_, fun t ht => next t ht ▸ h2⟩
    · rintro rfl
      exact scanKeepsBeginnings_sound (Bool.and_eq_true_iff.1 hi).1
    · rintro ⟨b, rfl⟩
      simpa [commandCheck] using hi
    · rintro rfl
      exact of_decide_eq_true (Bool.and_eq_true_iff.1 hi).2

end Sys2Proof.Machine
end

