-- ==== Sys2Proof/Laws/PerInstr.lean ====
section
/-! SUPPORT. Per-instruction families: a statement about each constructor of `Instr`, with one lemma each. -/

namespace Sys2Proof.Laws

/-- A well-formed command's word matches the mask and pattern of its row (30_encoding.md R35). -/
def EncodeMatchesRow.Statement (i : Instr) : Prop := i.wellFormed = true → encode i &&& i.mask = i.pattern

theorem EncodeMatchesRow.crcInit : EncodeMatchesRow.Statement .crcInit := fun _ => by decide

theorem EncodeMatchesRow.crcUpd (b : Byte) : EncodeMatchesRow.Statement (.crcUpd b) := fun _ => by
  revert b; decide

theorem EncodeMatchesRow.crcRd : EncodeMatchesRow.Statement .crcRd := fun _ => by decide

theorem EncodeMatchesRow.syncPush (b : Byte) : EncodeMatchesRow.Statement (.syncPush b) := fun _ => by
  revert b; decide

theorem EncodeMatchesRow.syncScan : EncodeMatchesRow.Statement .syncScan := fun _ => by decide

theorem EncodeMatchesRow.syncRdf (arg : Byte) : EncodeMatchesRow.Statement (.syncRdf arg) := by
  unfold EncodeMatchesRow.Statement
  revert arg; decide

theorem EncodeMatchesRow.syncPop : EncodeMatchesRow.Statement .syncPop := fun _ => by decide

theorem EncodeMatchesRow.rdsr : EncodeMatchesRow.Statement .rdsr := fun _ => by decide

theorem EncodeMatchesRow.clrf : EncodeMatchesRow.Statement .clrf := fun _ => by decide

theorem EncodeMatchesRow.syncRdal : EncodeMatchesRow.Statement .syncRdal := fun _ => by decide

theorem EncodeMatchesRow.syncRdfc : EncodeMatchesRow.Statement .syncRdfc := fun _ => by decide

theorem EncodeMatchesRow.syncClr : EncodeMatchesRow.Statement .syncClr := fun _ => by decide

theorem EncodeMatchesRow.reset : EncodeMatchesRow.Statement .reset := fun _ => by decide

end Sys2Proof.Laws
end

