-- ==== Sys2Proof/Tests/Slice0.lean ====
section
/-! SUPPORT. Tests with expected results from spec/95_test_vectors.md and the rules' examples, and a witness for the
hypotheses of every statement that has some. -/

-- one theorem after another: the kernel evaluations below, all at once, need more memory than one check has
set_option Elab.async false

namespace Sys2Proof.Tests

open Sys2Proof.Machine

/-! ## Helpers -/

/-- A state with the given buffers and unbounded capacities, else as after reset. -/
def st (acc : List Byte) (outq : List Frame) : State :=
  { State.reset with acc := acc, outq := outq, caps := Capacities.unbounded }

/-- The state of an answer that is one. -/
def nextOf (o : Host.Outcome State Fault Refusal) : Option State :=
  match o with
  | .next t => some t
  | .fault _ => none
  | .refused _ => none

/-- The first 64 bytes of a sequence as a frame. -/
def frameOf (l : List Byte) : Frame := (candidate l).getD (Vector.replicate 64 0)

/-- `F_A` (V20). -/
def bytesA : List Byte := [0x01, 0x02, 0x03, 0x04, 0x10] ++ List.replicate 57 0x00 ++ [0x02, 0x3F]

/-- `F_B` (V21). -/
def bytesB : List Byte :=
  [0x01, 0x02, 0x03, 0x04, 0x20, 0x00, 0x00, 0xB0, 0x04, 0xA4, 0x70, 0x45, 0x41, 0xF4, 0x01, 0x00,
    0x00, 0x14, 0xAE, 0x36, 0x42, 0xCD, 0xCC, 0x5C, 0x41] ++ List.replicate 37 0x00 ++ [0xF9, 0x42]

/-- `F_A` as a frame. -/
def frameA : Frame := frameOf bytesA

/-- `F_B` as a frame. -/
def frameB : Frame := frameOf bytesB

/-- `F_A` with byte 63 changed from `3F` to `3E` (V24). -/
def badA : List Byte := bytesA.take 63 ++ [0x3E]

/-! ## Well-formedness, decoding, assembling -/

theorem test_wellFormed_refuses_index_64 : (Instr.syncRdf 64).wellFormed = false := by decide

theorem test_wellFormed_refuses_index_255 : (Instr.syncRdf 255).wellFormed = false := by decide

theorem test_wellFormed_takes_index_63 : (Instr.syncRdf 63).wellFormed = true := by decide

/-- R35, every row; V51, the legal edge words. -/
theorem test_decode_rows :
    [0x0100, 0x0300, 0x1100, 0x1300, 0x1400, 0x1500, 0x1600, 0x1700, 0x1800, 0xFF00].map (decodeTableWord 16) =
      [some .crcInit, some .crcRd, some .syncScan, some .syncPop, some .rdsr, some .clrf, some .syncRdal,
        some .syncRdfc, some .syncClr, some .reset] := by decide

theorem test_decode_operands :
    [0x0200, 0x02FF, 0x1000, 0x10FF, 0x1200, 0x123F].map (decodeTableWord 16) =
      [some (.crcUpd 0x00), some (.crcUpd 0xFF), some (.syncPush 0x00), some (.syncPush 0xFF), some (.syncRdf 0),
        some (.syncRdf 63)] := by decide

/-- V50, V51: reserved words, rejected by name. -/
theorem test_decode_reserved :
    [0x1240#16, 0x12FF, 0x0000, 0x0400, 0x1900, 0x0F00, 0xFE00, 0xFFFF, 0x0101, 0x1101, 0x0301, 0x1401, 0xFF01].map
        decode =
      [.error (.reservedIndex 0x40), .error (.reservedIndex 0xFF), .error (.reservedOp 0x00), .error (.reservedOp 0x04),
        .error (.reservedOp 0x19), .error (.reservedOp 0x0F), .error (.reservedOp 0xFE),
        .error (.reservedArg 0xFF 0xFF), .error (.reservedArg 0x01 0x01), .error (.reservedArg 0x11 0x01),
        .error (.reservedArg 0x03 0x01), .error (.reservedArg 0x14 0x01), .error (.reservedArg 0xFF 0x01)] := by
  rfl

/-- R46, R47, R60, R62: the encodings the rules state. -/
theorem test_encode_words :
    [Instr.crcInit, .crcUpd 0x31, .syncPush 0x03, .syncRdf 63, .reset].map encode =
      [0x0100, 0x0231, 0x1003, 0x123F, 0xFF00] := by decide

/-- R38. -/
theorem test_assembleLine_takes_a_command :
    assembleLine "CRC.UPD 0x31 -- one byte".toList = some [.crcUpd 0x31] ∧
      assembleLine "SYNC.RDF 62".toList = some [.syncRdf 62] ∧ assembleLine "-- nothing".toList = some [] := by
  decide

theorem test_assembleLine_refuses_the_rest :
    assembleLine "SYNC.RDF 64".toList = none ∧ assembleLine "CRC.UPD 256".toList = none ∧
      assembleLine "RDSR 1".toList = none ∧ assembleLine "rdsr".toList = none ∧
        assembleLine "SYNC.PUSH".toList = none := by
  decide

/-! ## The functions -/

/-- R41, V9. -/
theorem test_crcRound : [0x8000, 0x7FFF, 0xFFFF, 0x0000, 0x0001].map crcRound =
    [0x1021, 0xFFFE, 0xEFDF, 0x0000, 0x0002] := by decide

/-- R42, V9. -/
theorem test_crcByte : crcByte 0xFFFF 0x00 = 0xE1F0 ∧ crcByte 0xFFFF 0xFF = 0xFF00 ∧ crcByte 0x0000 0x01 = 0x1021 ∧
    crcByte 0xFFFF 0x31 = 0xC782 := by decide

/-- V1, V3, V6. -/
theorem test_checksum : checksum [] = 0xFFFF ∧
    checksum [0x31, 0x32, 0x33, 0x34, 0x35, 0x36, 0x37, 0x38, 0x39] = 0x29B1 ∧
      checksum [0x01, 0x02, 0x03, 0x04] = 0x89C3 ∧ checksum (List.replicate 58 0x00) = 0xE676 := by decide +kernel

/-- V20: `encode(10, [])`, valid; V24: byte 63 changed, not valid. -/
theorem test_valid : encodeFrame 0x10 [] = bytesA ∧ valid frameA = true ∧ valid frameB = true ∧
    crcOk (frameOf badA) = false := by decide +kernel

/-- V23: the reserved byte is not part of the validity rule. -/
theorem test_valid_reserved_byte :
    encodeFrame' 0x10 0x00 0x5A [] = [0x01, 0x02, 0x03, 0x04, 0x10, 0x00, 0x5A] ++ List.replicate 55 0 ++ [0x90, 0xCE] ∧
      valid (frameOf (encodeFrame' 0x10 0x00 0x5A [])) = true := by decide +kernel

/-- V25. -/
theorem test_findMarker :
    findMarker [] = none ∧ findMarker [0x01, 0x02, 0x03] = none ∧ findMarker [0x01, 0x02, 0x03, 0x05] = none ∧
      findMarker [0x01, 0x01, 0x02, 0x03, 0x04] = some 1 ∧
        findMarker [0x01, 0x02, 0x03, 0x01, 0x02, 0x03, 0x04] = some 3 ∧
          findMarker [0x01, 0x02, 0x03, 0x04, 0x01, 0x02, 0x03, 0x04] = some 0 := by decide

/-! ## The commands, one step each -/

/-- R46, example. -/
theorem test_crcInit : (nextOf (exec .crcInit { st [] [] with crc := 0x29B1 })).map (·.crc) = some 0xFFFF := by decide

/-- R47, example, from the port. -/
theorem test_crcUpd : (nextOf (step ((st [] []).withFetchWord 16 0x0231))).map (fun t => (t.crc, t.responses)) =
    some (0xC782, [⟨false, 0⟩]) := by decide

/-- V10, line 2 to 3. -/
theorem test_crcRd : (nextOf (exec .crcRd { st [] [] with crc := 0xC782 })).map (fun t => (t.crc, t.responses)) =
    some (0xC782, [⟨false, 0xC782⟩]) := by decide

/-- R60, example, from the reset state itself. -/
theorem test_syncPush : (nextOf (step (State.reset.withFetchWord 16 0x1003))).map (fun t => (t.acc, t.sr)) =
    some ([0x03], 0x00) := by decide

/-- V42: the 129th push with `ACC_CAP = 128`. -/
theorem test_syncPush_overflow :
    (nextOf (exec (.syncPush 0x55) { st (List.replicate 128 0x55) [] with caps := ⟨.finite 0, .inf⟩ })).map
      (fun t => (t.acc.length, t.sr, t.responses)) = some (128, 0x10, [⟨true, 2⟩]) := by decide +kernel

/-- V30. -/
theorem test_syncScan :
    (nextOf (exec .syncScan (st (bytesA ++ [0xAA, 0xBB, 0xCC] ++ bytesB) []))).map
      (fun t => (t.acc, t.outq.map (·.toList), t.sr, t.responses)) =
      some ([], [bytesA, bytesB], 0x02, [⟨false, 0⟩]) := by decide +kernel

/-- V41: `OUTQ_CAP = 1`. -/
theorem test_syncScan_outFull :
    (nextOf (exec .syncScan { st (bytesA ++ bytesB) [] with caps := ⟨.inf, .finite 0⟩ })).map
      (fun t => (t.acc, t.outq.map (·.toList), t.sr, t.responses)) =
      some (bytesB, [bytesA], 0x00, [⟨false, 2⟩]) := by decide +kernel

/-- V48. -/
theorem test_syncRdf : (nextOf (exec (.syncRdf 63) (st [] [frameA, frameB]))).map (·.responses) =
    some [⟨false, 0x003F⟩] := by decide +kernel

/-- V50: decode comes first, so not `QueueEmpty`. -/
theorem test_syncRdf_reserved : (nextOf (step ((st [] []).withFetchWord 16 0x1240))).map (fun t => (t.sr, t.responses)) =
    some (0x20, [⟨true, 1⟩]) := by decide

/-- V48. -/
theorem test_syncPop : (nextOf (exec .syncPop (st [] [frameA, frameB]))).map (fun t => t.outq.map (·.toList)) =
    some [bytesB] := by decide +kernel

/-- V50. -/
theorem test_syncPop_empty : (nextOf (exec .syncPop (st [] []))).map (fun t => (t.sr, t.responses)) =
    some (0x40, [⟨true, 3⟩]) := by decide

/-- V48. -/
theorem test_syncRdfc : (nextOf (exec .syncRdfc (st [] [frameA, frameB]))).map (·.responses) = some [⟨false, 2⟩] := by
  decide

/-- R65, example. -/
theorem test_syncRdal : (nextOf (exec .syncRdal (st (List.replicate 40 0) []))).map (·.responses) =
    some [⟨false, 40⟩] := by decide

/-- V49. -/
theorem test_syncClr : (nextOf (exec .syncClr { st [0x01] [frameA] with crc := 0xC782, sr := 0x05 })).map
    (fun t => (t.acc, t.outq, t.crc, t.sr)) = some ([], [], 0xC782, 0x05) := by decide

/-- V50. -/
theorem test_rdsr : (nextOf (exec .rdsr { st [] [] with sr := 0x60 })).map (fun t => (t.sr, t.responses)) =
    some (0x60, [⟨false, 0x0060⟩]) := by decide

/-- R70, example. -/
theorem test_clrf : (nextOf (exec .clrf { st [] [] with sr := 0x65 })).map (·.sr) = some 0x60 := by decide

/-- R71, example. -/
theorem test_reset : (nextOf (exec .reset { st [0x01] [frameA] with crc := 0x29B1, sr := 0x62 })).map
    (fun t => (t.crc, t.acc, t.outq, t.sr)) = some (0xFFFF, [], [], 0x00) := by decide

/-! ## Witnesses: concrete states and operands that meet a statement's hypotheses -/

theorem witness_DecodeOfEncodeIsTheCommand : (Instr.syncRdf 63).wellFormed = true := by decide

theorem witness_EncodeOfDecodeIsTheWord : decode 0x123F = .ok (.syncRdf 63) := rfl

theorem witness_DecodingFollowsMaskAndMatch :
    0x0231#16 &&& (Instr.crcUpd 0x31).mask = (Instr.crcUpd 0x31).pattern ∧
      0x0231#16 &&& (Instr.crcUpd 0x00).mask = (Instr.crcUpd 0x00).pattern := by decide

theorem witness_ReservedWordsRaiseIllegalCommand :
    (presentNext 0x1240 State.reset).commands = 0x1240 :: [] ∧ IsReserved 0x1240 ∧ IsReserved 0x0101 ∧
      IsReserved 0x0400 ∧ ¬ IsReserved 0x123F ∧ ¬ IsReserved 0x02FF ∧ ¬ IsReserved 0xFF00 := by
  refine ⟨rfl, ?_⟩
  unfold IsReserved
  decide

theorem witness_StepRunsTheDecodedCommand :
    (presentNext 0x123F State.reset).commands = 0x123F :: [] ∧ decode 0x123F = .ok (.syncRdf 63) ∧
      decode 0x1240 = .error (.reservedIndex 0x40) := ⟨rfl, rfl, rfl⟩

theorem witness_IdleStepChangesNothing : State.reset.commands = [] := rfl

theorem witness_RunningWordsIsRunningCommands :
    (∀ i ∈ [Instr.crcInit, .syncRdf 63], i.wellFormed = true) ∧
      (State.reset.presenting [0x0100, 0x123F, 0x0300]).commands =
        [Instr.crcInit, .syncRdf 63].map encode ++ [0x0300] := by decide

theorem witness_AssemblerRefusesOperandsOutOfRange :
    operandCommand "SYNC.RDF".toList 63 = some (.syncRdf 63) ∧ 255 < 256 ∧ 63 < 64 ∧
      plainCommand "RDSR".toList = some .rdsr := by decide

theorem witness_CrcCommandsComputeTheChecksum :
    (∀ i ∈ [Instr.crcUpd 0x31, .syncScan, .crcUpd 0x32], i ≠ .crcInit ∧ i ≠ .reset) ∧ State.reset.crc = 0xFFFF#16 := by
  decide

theorem witness_SingleBitChangesChangeTheChecksum : (List.replicate 58 (0 : Byte)).length = 58 ∧ 57 < 58 ∧ 7 < 8 := by
  decide

theorem witness_EncodedFramesAreValid : (List.replicate 55 (0xFF : Byte)).length ≤ 55 ∧ valid frameB = true :=
  ⟨by decide, test_valid.2.2.1⟩

/-- 65, 64 and 0 bytes. -/
theorem witness_MissingMarkerDiscards :
    (findMarker (st (List.replicate 65 0x55) []).acc = none ∧ 64 < (st (List.replicate 65 0x55) []).acc.length) ∧
      (findMarker (st (List.replicate 64 0x55) []).acc = none ∧ 0 < (st (List.replicate 64 0x55) []).acc.length ∧
        (st (List.replicate 64 0x55) []).acc.length ≤ 64) ∧
        findMarker (st [] []).acc = none ∧ (st [] []).acc = [] := by decide

theorem witness_MarkerAtAnOffsetResyncs :
    findMarker (st [0x55, 0x01, 0x02, 0x03, 0x04] []).acc = some 1 ∧ 0 < 1 := by decide

/-- 4 and 63 bytes. -/
theorem witness_AlignedButShortWaits :
    (MarkerAt (st (bytesA.take 4) []).acc 0 ∧ (st (bytesA.take 4) []).acc.length < 64) ∧
      MarkerAt (st (bytesA.take 63) []).acc 0 ∧ (st (bytesA.take 63) []).acc.length < 64 := by
  unfold MarkerAt
  decide

theorem witness_BadChecksumDropsOneByte :
    (st badA []).acc = (frameOf badA).toList ++ [] ∧ markerOk (frameOf badA) = true ∧ crcOk (frameOf badA) = false := by
  decide +kernel

/-- A full queue of one frame, and an unbounded one. -/
theorem witness_ValidFrameIsEmittedOrHeld :
    ((st (bytesA ++ [0x55]) []).acc = frameA.toList ++ [0x55] ∧ valid frameA = true) ∧
      (⟨.inf, .finite 0⟩ : Capacities).outqCap = .finite (st (bytesA ++ [0x55]) [frameB]).outq.length ∧
        Capacities.unbounded.outqCap ≠ .finite (st (bytesA ++ [0x55]) [frameB]).outq.length := by decide +kernel

theorem witness_StopCodesDescribeTheState :
    (scan (st [0x55] [])).1 = .noMarker ∧ (scan (st (bytesA.take 40) [])).1 = .waitBytes ∧
      (scan { st bytesA [frameB] with caps := ⟨.inf, .finite 0⟩ }).1 = .outFull := by decide +kernel

theorem witness_SyncScanRespondsTheStopCode : srHas ({ st [] [] with sr := 0x01 } : State).sr .nomark = true := by decide

theorem witness_HeldScanIsRepeatable :
    (scan (st (bytesA.take 40) [])).1 ≠ .noMarker ∧
      (scan { st bytesA [frameB] with caps := ⟨.inf, .finite 0⟩ }).1 ≠ .noMarker := by decide +kernel

theorem witness_ScanLeavesABoundedAccumulator :
    (scan (st (bytesA.take 63) [])).1 ≠ .outFull ∧ (scan (st (List.replicate 80 0x55) [])).1 ≠ .outFull := by
  decide +kernel

theorem witness_NoiseIsWornDownTenBytesAScan :
    findMarker (st (List.replicate 65 0x55) []).acc = none ∧ 64 < (st (List.replicate 65 0x55) []).acc.length := by decide

theorem witness_ScanningEveryByteEmitsNothing : (st [] [frameA]).acc = [] := rfl

/-- An empty block with the least capacities R4 allows, `ACC_CAP = 128` and `OUTQ_CAP = 1`. -/
def least : State := { st [] [] with caps := ⟨.finite 0, .finite 0⟩ }

/-- V37 (b): noise and the marker, then the rest of the frame. -/
def cutV37 : List (List Byte) := [List.replicate 5 0x55 ++ bytesA.take 4, bytesA.drop 4]

/-- V37 (b) with the least capacities, which it does not reach and which hold its stream whole. -/
theorem witness_SafeCutsEmitTheSameFrames :
    least.acc = [] ∧ ReachesNoCapacity (cutV37.flatMap syncFeed) least ∧ CutsAreSafe (cutV37.flatMap syncFeed) least ∧
      capAllows least.caps.accCap cutV37.flatten.length = true :=
  have h : cutsCheck (cutV37.flatMap syncFeed) least = true := by decide +kernel
  ⟨rfl, (cutsCheck_sound h).2, (cutsCheck_sound h).1, by decide +kernel⟩

/-- V37, (a) and (b), with the least capacities: the same frame. -/
theorem test_cut_finite_capacities :
    (nextOf (execAll (cutV37.flatMap syncFeed) least)).map (fun t => (t.acc, t.outq.map (·.toList), t.sr)) =
        some ([], [bytesA], 0x02) ∧
      (nextOf (execAll (syncFeed cutV37.flatten) least)).map (fun t => (t.acc, t.outq.map (·.toList), t.sr)) =
        some ([], [bytesA], 0x02) := by decide +kernel

/-- V36, the counterexample's cut: the frame is lost, and the cut is not safe. -/
theorem test_cut_inside_the_marker :
    (nextOf (execAll ([List.replicate 5 0x55 ++ bytesA.take 2, bytesA.drop 2].flatMap syncFeed) least)).map
        (fun t => (t.acc, t.outq, t.sr)) = some ([], [], 0x01) ∧
      cutsCheck (syncFeed (List.replicate 5 0x55 ++ bytesA.take 2)) least = false := by decide +kernel

/-- Two frames through a queue of one, the first read and popped before the second is scanned. -/
def readBetween : List Instr :=
  (syncFeed bytesA ++ [.rdsr, .syncRdf 4, .syncPop]) ++ bytesB.map .syncPush

/-- Room for two frames: every clause; room for one: the first clause, where the stream pushed whole would not fit. -/
theorem witness_SafeScansAtAnyPlacesEmitTheSameFrames :
    let two : State := { least with caps := ⟨.finite 0, .finite 1⟩ }
    (two.acc = [] ∧ (∀ i ∈ readBetween, i ≠ .syncClr ∧ i ≠ .reset) ∧ ReachesNoCapacity (readBetween ++ [.syncScan]) two ∧
      CutsAreSafe (readBetween ++ [.syncScan]) two ∧ ReachesNoCapacity (syncFeed (bytesPushed readBetween)) two) ∧
      ReachesNoCapacity (readBetween ++ [.syncScan]) least ∧ CutsAreSafe (readBetween ++ [.syncScan]) least :=
  have h (n : Nat) (hn : n < 2) :
      cutsCheck (readBetween ++ [.syncScan]) { least with caps := ⟨.finite 0, .finite n⟩ } = true := by
    revert n
    decide +kernel
  have h' : cutsCheck (syncFeed (bytesPushed readBetween)) { least with caps := ⟨.finite 0, .finite 1⟩ } = true := by
    decide +kernel
  have h1 := cutsCheck_sound (h 1 (by decide))
  have h0 := cutsCheck_sound (h 0 (by decide))
  ⟨⟨rfl, by decide +kernel, h1.2, h1.1, (cutsCheck_sound h').2⟩, h0.2, h0.1⟩

/-- 127 bytes, the most the second clause takes, meet both clauses; and 128 with room for two frames the first. -/
theorem witness_ShortStreamsReachNoCapacity :
    (least.acc = [] ∧ capAllows least.caps.accCap [List.replicate 127 (0x55 : Byte)].flatten.length = true ∧
      capAllows least.caps.outqCap (least.outq.length + [List.replicate 127 (0x55 : Byte)].flatten.length / 64) = true ∧
        [List.replicate 127 (0x55 : Byte)].flatten.length < 128) ∧
      capAllows (⟨.finite 0, .finite 1⟩ : Capacities).accCap [bytesA, bytesA].flatten.length = true ∧
        capAllows (⟨.finite 0, .finite 1⟩ : Capacities).outqCap (0 + [bytesA, bytesA].flatten.length / 64) = true := by
  decide +kernel

theorem witness_FedFrameIsEmitted : (st [] []).acc = [] ∧ valid frameA = true ∧
    (st [] []).caps.outqCap ≠ .finite (st [] []).outq.length := by decide +kernel

/-- 127 and 128 bytes with `ACC_CAP = 128`. -/
theorem witness_SyncPushAppendsOrOverflows :
    (⟨.finite 0, .inf⟩ : Capacities).accCap ≠ .finite (st (List.replicate 127 0x55) []).acc.length ∧
      (⟨.finite 0, .inf⟩ : Capacities).accCap = .finite (st (List.replicate 128 0x55) []).acc.length := by decide +kernel

theorem witness_SyncRdfReadsTheHeadFrame :
    ((63#8).toNat = (63 : Fin 64).val ∧ (st [] [frameA]).outq = frameA :: []) ∧
      ((63#8).toNat < 64 ∧ (st [] []).outq = []) ∧ 64 ≤ (64#8).toNat := ⟨⟨rfl, rfl⟩, ⟨by decide, rfl⟩, by decide⟩

/-- A state of a run with a frame waiting. -/
theorem blockInv_frameA : BlockInv (st [] [frameA]) where
  frames := by
    intro f hf
    cases List.mem_singleton.1 hf
    exact test_valid.2.1
  storage := rfl
  reserved := rfl
  badmark := rfl

theorem witness_HeadFrameReadsMarkerAndChecksum :
    BlockInv (st [] [frameA]) ∧ (st [] [frameA]).outq = frameA :: [] := ⟨blockInv_frameA, rfl⟩

theorem witness_SyncPopRemovesTheHeadFrame : (st [] [frameA]).outq = frameA :: [] ∧ (st [] []).outq = [] := ⟨rfl, rfl⟩

theorem witness_SyncGetfTakesTheHeadFrame : (st [] [frameA, frameB]).outq = frameA :: [frameB] := rfl

theorem witness_RdsrReadsTheStatus : BlockInv (st [] [frameA]) := blockInv_frameA

theorem witness_EveryStepKeepsTheInvariants :
    BlockInv { st [] [frameA] with commands := [0x1240] } ∧
      ∃ t, step { st [] [frameA] with commands := [0x1240] } = .next t :=
  ⟨⟨blockInv_frameA.frames, rfl, rfl, rfl⟩, _, rfl⟩

theorem witness_FaultsArePrecise :
    ({ st [] [] with commands := [0x1300] } : State).commands = 0x1300 :: [] ∧
      ∃ t, step { st [] [] with commands := [0x1300] } = .next t ∧ t.responses = (st [] []).responses ++ [⟨true, 3⟩] :=
  ⟨rfl, _, rfl, rfl⟩

/-- A fault flag cleared by `RESET` and an event flag cleared by `CLRF`. -/
theorem witness_FlagsAreSticky :
    (∃ t, step { st [] [] with sr := 0x20, commands := [0xFF00] } = .next t ∧ srHas 0x20 .ill = true ∧
      srHas t.sr .ill = false) ∧
      ∃ t, step { st [] [] with sr := 0x01, commands := [0x1500] } = .next t ∧ srHas 0x01 .nomark = true ∧
        srHas t.sr .nomark = false := ⟨⟨_, rfl, rfl, rfl⟩, _, rfl, rfl, rfl⟩

/-- One command for each piece of state that it changes, and a fault. -/
theorem witness_OnlyTheListedCommandsWrite :
    (∃ t, exec (.crcUpd 0x31) (st [] []) = .next t ∧ t.crc ≠ (st [] []).crc) ∧
      (∃ t, exec (.syncPush 0x31) (st [] []) = .next t ∧ t.acc ≠ (st [] []).acc) ∧
        (∃ t, exec .syncPop (st [] [frameA]) = .next t ∧ t.outq ≠ (st [] [frameA]).outq) ∧
          ∃ t, exec .syncPop (st [] []) = .next t ∧ t.sr ≠ (st [] []).sr :=
  ⟨⟨_, rfl, by decide⟩, ⟨_, rfl, by decide⟩, ⟨_, rfl, List.cons_ne_nil _ _ ∘ Eq.symm⟩, ⟨_, rfl, by decide⟩⟩

theorem witness_ReadsHaveNoSideEffects :
    (∃ t r, exec (.syncRdf 62) (st [] [frameA]) = .next t ∧ t.responses = (st [] [frameA]).responses ++ [r] ∧
      r.err = false) ∧
      ∃ t, exec .syncScan (st [] [frameA]) = .next t ∧ (st [] [frameA]).outq.head? = some frameA :=
  ⟨⟨_, _, rfl, rfl, rfl⟩, _, rfl, rfl⟩

theorem witness_ChecksumAndSynchronizerShareNoState :
    (∃ t, exec (.crcUpd 0x31) (st [0x01] [frameA]) = .next t) ∧ ∃ t, exec .syncScan (st [0x01] [frameA]) = .next t :=
  ⟨⟨_, rfl⟩, _, rfl⟩

end Sys2Proof.Tests
end

section
/-! PROOFS. The statements of 00_scope.md: every word presented gets one response (O52), and which streams reach no
capacity (O59). -/

namespace Sys2Proof.Machine

/-! ## What `scan` leaves as it is, and what it does not increase -/

/-- The state in which an iteration of `scan` ends, whether it returns or goes round again. -/
def Pass.state : Pass → State
  | .stop _ s => s
  | .again s => s

/-- `scan_keeps` with both ends of an iteration in one premise. -/
theorem scan_keeps_of_scanPass {P : State → Prop} (pass : ∀ u, P u → P (scanPass u).state) {s : State} (h : P s) :
    P (scan s).2 := by
  refine scan_keeps (fun u code t hu e => ?_) (fun u t hu e => ?_) h
  · have ht := pass u hu
    rwa [e] at ht
  · have ht := pass u hu
    rwa [e] at ht

/-- An iteration of `scan` writes the accumulator, the output queue and `SR`, and nothing else (41_sync.md R52). -/
theorem scanPass_frame (s : State) :
    (scanPass s).state =
      { s with acc := (scanPass s).state.acc, outq := (scanPass s).state.outq, sr := (scanPass s).state.sr } := by
  rcases scanPass_cases s with ⟨_, e⟩ | ⟨p, _, hp⟩
  · rw [e]
    rcases noMarkerDiscard_cases s with ⟨_, d⟩ | ⟨_, _, d⟩ | ⟨_, d⟩ <;> rw [d] <;> rfl
  · rcases resync_cases p s with ⟨_, r⟩ | ⟨_, r⟩ <;> rw [r] at hp <;>
      rcases hp with ⟨_, e⟩ | ⟨cand, _, _, _, ⟨_, e⟩ | ⟨_, _, e⟩ | ⟨_, _, e⟩⟩ <;> rw [e] <;> rfl

/-- `scan` writes the accumulator, the output queue and `SR`, and nothing else (41_sync.md R61). -/
theorem scan_frame (s : State) :
    (scan s).2 = { s with acc := (scan s).2.acc, outq := (scan s).2.outq, sr := (scan s).2.sr } := by
  refine scan_keeps_of_scanPass (P := fun u => u = { s with acc := u.acc, outq := u.outq, sr := u.sr }) ?_ rfl
  intro u hu
  rw [hu]
  exact scanPass_frame _

@[simp] theorem scan_caps (s : State) : (scan s).2.caps = s.caps := by rw [scan_frame]
@[simp] theorem scan_commands (s : State) : (scan s).2.commands = s.commands := by rw [scan_frame]
@[simp] theorem scan_responses (s : State) : (scan s).2.responses = s.responses := by rw [scan_frame]

/-- The bytes the two spaces hold: those of the accumulator, and 64 for each frame waiting. -/
def bytesHeld (s : State) : Nat := s.acc.length + 64 * s.outq.length

/-- An iteration of `scan` discards bytes or makes a frame of 64 of them: it lengthens neither the accumulator nor the
two spaces together. -/
theorem scanPass_lengths_le (s : State) :
    (scanPass s).state.acc.length ≤ s.acc.length ∧ bytesHeld (scanPass s).state ≤ bytesHeld s := by
  have hr (p : Nat) : (resync p s).outq = s.outq := by
    rcases resync_cases p s with ⟨_, e⟩ | ⟨_, e⟩ <;> simp [e]
  rcases scanPass_cases s with ⟨_, e⟩ | ⟨p, _, ⟨_, e⟩ | ⟨cand, hl, _, _, ⟨_, e⟩ | ⟨_, _, e⟩ | ⟨_, _, e⟩⟩⟩ <;>
    simp only [e, Pass.state, bytesHeld]
  · rcases noMarkerDiscard_cases s with ⟨_, d⟩ | ⟨_, _, d⟩ | ⟨_, d⟩ <;> simp [d]
  · simp [hr]
  · simp only [dropBad, accDrop_acc, accDrop_outq, setFlag_acc, setFlag_outq, resync_acc, hr, List.length_drop]
    omega
  · simp [hr]
  · simp only [accDrop_acc, accDrop_outq, outqAppend_acc, outqAppend_outq, resync_acc, hr, List.length_drop,
      List.length_append, List.length_singleton]
    omega

/-- Nor does `scan`. -/
theorem scan_lengths_le (s : State) :
    (scan s).2.acc.length ≤ s.acc.length ∧ bytesHeld (scan s).2 ≤ bytesHeld s := by
  refine scan_keeps_of_scanPass (P := fun u => u.acc.length ≤ s.acc.length ∧ bytesHeld u ≤ bytesHeld s) ?_
    ⟨le_rfl, le_rfl⟩
  rintro u ⟨ha, hb⟩
  obtain ⟨ha', hb'⟩ := scanPass_lengths_le u
  exact ⟨ha'.trans ha, hb'.trans hb⟩

/-- A `scan` answers `OUT_FULL` only with the queue full and a candidate's 64 bytes held back (41_sync.md R58). -/
theorem scan_outFull {s : State} (h : (scan s).1 = .outFull) :
    outqFull (scan s).2 = true ∧ 64 ≤ (scan s).2.acc.length := by
  revert h
  refine scan_induction (motive := fun _ r => r.1 = .outFull → outqFull r.2 = true ∧ 64 ≤ r.2.acc.length) ?_ ?_ s
  · rintro u code t e rfl
    rcases scanPass_cases u with ⟨_, e'⟩ | ⟨p, _, ⟨_, e'⟩ | ⟨cand, hl, _, _, ⟨_, e'⟩ | ⟨_, hq, e'⟩ | ⟨_, _, e'⟩⟩⟩ <;>
      rw [e] at e' <;> cases e'
    exact ⟨hq, by simpa using hl⟩
  · intro u t e ih
    rwa [scan_of_again e]

/-! ## One response for each word -/

/-- `t` is `s` with one response more and the same words still to be presented (30_encoding.md R34). -/
def AnsweredOnce (s t : State) : Prop := t.commands = s.commands ∧ ∃ r, t.responses = s.responses ++ [r]

/-- Responding answers once, after updates that touch neither the words nor the responses. -/
theorem answeredOnce_respond {s u : State} (err : Bool) (data : Word) (hc : u.commands = s.commands)
    (hr : u.responses = s.responses) : AnsweredOnce s (respond err data u) :=
  ⟨hc, _, by rw [respond_responses, hr]⟩

/-- So does raising a fault. -/
theorem answeredOnce_raise (f : BlockFault) (s : State) : AnsweredOnce s (raise f s) := ⟨rfl, _, rfl⟩

/-- Every command answers once (00_scope.md R5). -/
theorem exec_answersOnce (i : Instr) (s : State) : ∃ t, exec i s = .next t ∧ AnsweredOnce s t := by
  cases i with
  | syncPush b =>
    rcases execSyncPush_cases b s with ⟨_, e⟩ | ⟨_, e⟩
    · exact ⟨_, e, answeredOnce_raise _ s⟩
    · exact ⟨_, e, answeredOnce_respond _ _ rfl rfl⟩
  | syncScan => exact ⟨_, rfl, answeredOnce_respond _ _ (scan_commands s) (scan_responses s)⟩
  | syncRdf arg =>
    rcases execSyncRdf_cases arg s with ⟨_, e⟩ | ⟨_, _, e⟩ | ⟨_, _, _, _, _, e⟩
    · exact ⟨_, e, answeredOnce_raise _ s⟩
    · exact ⟨_, e, answeredOnce_raise _ s⟩
    · exact ⟨_, e, answeredOnce_respond _ _ rfl rfl⟩
  | syncPop =>
    rcases execSyncPop_cases s with ⟨_, e⟩ | ⟨_, e⟩
    · exact ⟨_, e, answeredOnce_raise _ s⟩
    · exact ⟨_, e, answeredOnce_respond _ _ rfl rfl⟩
  | crcInit | crcUpd | crcRd | rdsr | clrf | syncRdal | syncRdfc | syncClr | reset =>
    exact ⟨_, rfl, answeredOnce_respond _ _ rfl rfl⟩

/-- Every word, reserved or not, answers once (30_encoding.md R37). -/
theorem runWord_answersOnce (cmd : Word) (s : State) : ∃ t, runWord cmd s = .next t ∧ AnsweredOnce s t := by
  rcases runWord_cases cmd s with ⟨i, _, e⟩ | ⟨_, _, e⟩
  · rw [e]
    exact exec_answersOnce i s
  · exact ⟨_, e, answeredOnce_raise _ s⟩

/-- As many steps as there are words take them all, with one response each (20_memory.md R24). -/
theorem runSteps_answers_each (ws : List Word) (s : State) (h : s.commands = ws) :
    ∃ t rs, runSteps ws.length s = .next t ∧ t.commands = [] ∧ t.responses = s.responses ++ rs ∧
      rs.length = ws.length := by
  induction ws generalizing s with
  | nil => exact ⟨s, [], rfl, h, by simp, rfl⟩
  | cons cmd rest ih =>
    obtain ⟨u, hu, hc, r, hr⟩ := runWord_answersOnce cmd { s with commands := rest }
    obtain ⟨t, rs, ht, hnil, hrs, hlen⟩ := ih u hc
    refine ⟨t, r :: rs, ?_, hnil, by simp [hrs, hr], by simp [hlen]⟩
    rw [List.length_cons, runSteps_succ_of_next ((step_command h).trans hu), ht]

/-- Settles O52: each word answers once, by induction on the words presented. -/
theorem everyCommandGetsOneResponse : Obligations.EveryCommandGetsOneResponse :=
  fun s => runSteps_answers_each s.commands s rfl

/-! ## Which streams reach no capacity -/

/-- A length below one that a capacity allows is not the capacity. -/
theorem ne_finite_of_capAllows {c : Sys2Proof.Capacity} {m n : Nat} (h : capAllows c n = true) (hlt : m < n) :
    c ≠ .finite m := by
  rintro rfl
  simp only [capAllows, decide_eq_true_eq] at h
  omega

/-- Every capacity R4 allows allows its least value. -/
theorem capAllows_above {min n : Nat} (spare : Sys2Proof.Capacity) (h : n ≤ min) :
    capAllows (spare.above min) n = true := by
  cases spare with
  | finite k => exact decide_eq_true (by omega)
  | inf => rfl

/-- A push reaches no capacity exactly when the accumulator has room and the rest, after the byte, reaches none (R60). -/
theorem reachesNoCapacity_push_iff (b : Byte) (is : List Instr) (s : State) :
    ReachesNoCapacity (.syncPush b :: is) s ↔
      accFull s = false ∧ ReachesNoCapacity is (respond false 0 (accAppend b s)) := by
  simp only [ReachesNoCapacity]
  rcases execSyncPush_cases b s with ⟨hf, e⟩ | ⟨hf, e⟩ <;> simp [hf, e]

/-- A scan reaches no capacity exactly when it does not stop for a full queue and the rest, from what it leaves, reaches
none (R58). -/
theorem reachesNoCapacity_scan_iff (is : List Instr) (s : State) :
    ReachesNoCapacity (.syncScan :: is) s ↔
      (scan s).1 ≠ .outFull ∧ ReachesNoCapacity is (respond false (scan s).1.number (scan s).2) := by
  simp [ReachesNoCapacity, exec, execSyncScan]

/-- A scan of an accumulator whose bytes, 64 to a frame, the queue has room for does not stop for a full queue. -/
theorem scan_ne_outFull {s : State}
    (h : capAllows s.caps.outqCap (s.outq.length + s.acc.length / 64) = true) : (scan s).1 ≠ .outFull := by
  intro hf
  obtain ⟨hq, hl⟩ := scan_outFull hf
  rw [outqFull_iff, scan_caps] at hq
  obtain ⟨_, hb⟩ := scan_lengths_le s
  simp only [bytesHeld] at hb
  exact ne_finite_of_capAllows h (by omega) hq

/-- Pushes and scans at any places reach no capacity when the accumulator has room for the bytes still to come and the
queue for one frame of each 64 bytes: a push takes one byte of that room, and a scan takes none. -/
theorem reachesNoCapacity_of_room {is : List Instr} {s : State}
    (his : ∀ i ∈ is, (∃ b, i = .syncPush b) ∨ i = .syncScan)
    (ha : capAllows s.caps.accCap (s.acc.length + (bytesPushed is).length) = true)
    (hq : capAllows s.caps.outqCap (s.outq.length + (s.acc.length + (bytesPushed is).length) / 64) = true) :
    ReachesNoCapacity is s := by
  induction is generalizing s with
  | nil => trivial
  | cons i is ih =>
    obtain ⟨hi, hrest⟩ := List.forall_mem_cons.1 his
    rcases hi with ⟨b, rfl⟩ | rfl
    · simp only [bytesPushed, List.length_cons] at ha hq
      have room : accFull s = false := by
        rw [← Bool.not_eq_true, accFull_iff]
        exact ne_finite_of_capAllows ha (by omega)
      refine (reachesNoCapacity_push_iff b is s).2 ⟨room, ih hrest ?_ ?_⟩
      · simpa [Nat.add_assoc, Nat.add_comm 1] using ha
      · simpa [Nat.add_assoc, Nat.add_comm 1] using hq
    · simp only [bytesPushed] at ha hq
      obtain ⟨hacc, hheld⟩ := scan_lengths_le s
      simp only [bytesHeld] at hheld
      have room : (scan s).1 ≠ .outFull := scan_ne_outFull (capAllows_mono (by omega) hq)
      refine (reachesNoCapacity_scan_iff is s).2 ⟨room, ih hrest ?_ ?_⟩
      · simpa using capAllows_mono (by omega) ha
      · simpa using capAllows_mono (by omega) hq

/-- A delivery pushes its bytes. -/
theorem bytesPushed_syncFeed_append (bs : List Byte) (is : List Instr) :
    bytesPushed (syncFeed bs ++ is) = bs ++ bytesPushed is := by
  induction bs with
  | nil => rfl
  | cons b bs ih => exact congrArg (b :: ·) ih

/-- Deliveries in turn push their bytes in turn. -/
theorem bytesPushed_flatMap_syncFeed (ds : List (List Byte)) : bytesPushed (ds.flatMap syncFeed) = ds.flatten := by
  induction ds with
  | nil => rfl
  | cons d ds ih => rw [List.flatMap_cons, bytesPushed_syncFeed_append, ih, List.flatten_cons]

/-- A delivery is pushes and a scan (30_encoding.md R39). -/
theorem push_or_scan_of_mem_syncFeed {ds : List (List Byte)} {i : Instr} (h : i ∈ ds.flatMap syncFeed) :
    (∃ b, i = .syncPush b) ∨ i = .syncScan := by
  simp only [syncFeed, List.mem_flatMap, List.mem_append, List.mem_map, List.mem_singleton] at h
  obtain ⟨_, _, ⟨b, _, rfl⟩ | rfl⟩ := h
  · exact .inl ⟨b, rfl⟩
  · exact .inr rfl

/-- Deliveries into an empty accumulator that holds them whole, with room in the queue for their frames. -/
theorem deliveries_reachNoCapacity (ds : List (List Byte)) (s : State) (hs : s.acc = [])
    (ha : capAllows s.caps.accCap ds.flatten.length = true)
    (hq : capAllows s.caps.outqCap (s.outq.length + ds.flatten.length / 64) = true) :
    ReachesNoCapacity (ds.flatMap syncFeed) s :=
  reachesNoCapacity_of_room (fun _ => push_or_scan_of_mem_syncFeed)
    (by simpa [hs, bytesPushed_flatMap_syncFeed] using ha) (by simpa [hs, bytesPushed_flatMap_syncFeed] using hq)

/-- Settles O59: the room of `reachesNoCapacity_of_room`, which after reset R4's least capacities, 128 and 1, give. -/
theorem shortStreamsReachNoCapacity : Obligations.ShortStreamsReachNoCapacity := by
  refine ⟨deliveries_reachNoCapacity, fun ds h => ?_⟩
  have hframes : State.reset.outq.length + ds.flatten.length / 64 ≤ 1 := by
    simp only [State.reset, List.length_nil]
    omega
  exact deliveries_reachNoCapacity ds _ rfl (capAllows_above _ h.le) (capAllows_above _ hframes)

end Sys2Proof.Machine
end

section
/-! PROOFS. The statements of 10_state.md: the reset values (O49), which command writes which piece of state (O55), and
which words clear a flag (O54). -/

namespace Sys2Proof.Machine

/-! ## The word that a command was decoded from -/

/-- A command without operand is decoded from `arg = 0` only (30_encoding.md R36). -/
theorem decodePlain_eq_ok {op arg : Byte} {i j : Instr} : decodePlain op arg i = .ok j ↔ arg = 0#8 ∧ i = j := by
  unfold decodePlain
  split <;> simp [*]

/-- `SYNC.RDF` carries its `arg` (30_encoding.md R33). -/
theorem eq_of_decodeRdf_eq_ok {arg : Byte} {i : Instr} (h : decodeRdf arg = .ok i) : i = .syncRdf arg := by
  unfold decodeRdf at h
  split at h
  · exact (Except.ok.inj h).symm
  · cases h

/-- The two fields of a word that decodes to a command are the command's row and its operand (30_encoding.md R35). -/
theorem fields_of_decode {cmd : Word} {i : Instr} (h : decode cmd = .ok i) :
    opField cmd = i.op ∧ argField cmd = i.operand := by
  have row {n : Nat} (hn : (opField cmd).toNat = n) : opField cmd = BitVec.ofNat 8 n := by simp [← hn]
  dsimp only [decode] at h
  -- The arms in the order of `decode`: the 2nd and 4th take any operand, the 6th is `SYNC.RDF`, the 14th has no row.
  split at h <;> rename_i hop
  case h_14 => cases h
  case h_2 | h_4 =>
    cases h
    exact ⟨row hop, rfl⟩
  case h_6 =>
    cases eq_of_decodeRdf_eq_ok h
    exact ⟨row hop, rfl⟩
  all_goals
    obtain ⟨harg, rfl⟩ := decodePlain_eq_ok.1 h
    exact ⟨row hop, harg⟩

/-- A word is its two fields (30_encoding.md R33, R38). -/
theorem ofNat_fields (cmd : Word) : BitVec.ofNat 16 ((opField cmd).toNat * 256 + (argField cmd).toNat) = cmd := by
  apply BitVec.eq_of_toNat_eq
  simp only [opField, argField, BitVec.extractLsb'_toNat, BitVec.toNat_ofNat, Nat.shiftRight_eq_div_pow]
  omega

/-- The word that decodes to a command is its encoding. -/
theorem encode_of_decode {cmd : Word} {i : Instr} (h : decode cmd = .ok i) : encode i = cmd := by
  obtain ⟨hop, harg⟩ := fields_of_decode h
  rw [encode, ← hop, ← harg, ofNat_fields]

/-! ## What a command does: a fault, or its own writes and a response -/

/-- The writes of a command that raises no fault, its response left out. -/
def effect : Instr → State → State
  | .crcInit, s => setCrc Constants.crcInitValue s
  | .crcUpd b, s => setCrc (crcByte s.crc b) s
  | .syncPush b, s => accAppend b s
  | .syncScan, s => (scan s).2
  | .syncPop, s => outqDrop s
  | .clrf, s => { s with sr := srClearEvents s.sr }
  | .syncClr, s => outqClear (accClear s)
  | .reset, s => resetBlock s
  | .crcRd, s | .syncRdf _, s | .rdsr, s | .syncRdal, s | .syncRdfc, s => s

/-- A command raises a fault, or it makes its writes and answers `err = 0` (60_exceptions.md R73). -/
theorem exec_cases {i : Instr} {s t : State} (h : exec i s = .next t) :
    (∃ f, t = raise f s) ∨ ∃ d, t = respond false d (effect i s) := by
  cases i with
  | syncPush b =>
    rcases execSyncPush_cases b s with ⟨_, e⟩ | ⟨_, e⟩ <;> cases h.symm.trans e
    · exact .inl ⟨_, rfl⟩
    · exact .inr ⟨_, rfl⟩
  | syncRdf arg =>
    rcases execSyncRdf_cases arg s with ⟨_, e⟩ | ⟨_, _, e⟩ | ⟨_, _, _, _, _, e⟩ <;> cases h.symm.trans e
    · exact .inl ⟨_, rfl⟩
    · exact .inl ⟨_, rfl⟩
    · exact .inr ⟨_, rfl⟩
  | syncPop =>
    rcases execSyncPop_cases s with ⟨_, e⟩ | ⟨_, e⟩ <;> cases h.symm.trans e
    · exact .inl ⟨_, rfl⟩
    · exact .inr ⟨_, rfl⟩
  | crcInit | crcUpd | crcRd | syncScan | rdsr | clrf | syncRdal | syncRdfc | syncClr | reset =>
    cases h
    exact .inr ⟨_, rfl⟩

/-- A step takes no word and changes nothing, or takes a word that raises a fault or does what its command does. -/
theorem step_cases {s t : State} (h : step s = .next t) :
    t = s ∨ ∃ cmd rest, s.commands = cmd :: rest ∧
      ((∃ f, t = raise f { s with commands := rest }) ∨
        ∃ i d, decode cmd = .ok i ∧ t = respond false d (effect i { s with commands := rest })) := by
  cases hc : s.commands with
  | nil =>
    cases (step_idle hc).symm.trans h
    exact .inl rfl
  | cons cmd rest =>
    refine .inr ⟨cmd, rest, rfl, ?_⟩
    rw [step_command hc] at h
    rcases runWord_cases cmd { s with commands := rest } with ⟨i, hi, e⟩ | ⟨_, _, e⟩ <;> rw [e] at h
    · rcases exec_cases h with hf | ⟨d, hd⟩
      · exact .inl hf
      · exact .inr ⟨i, d, hi, hd⟩
    · cases h
      exact .inl ⟨_, rfl⟩

/-! ## Which command writes which piece of state -/

@[simp] theorem scan_crc (s : State) : (scan s).2.crc = s.crc := by rw [scan_frame]

@[simp] theorem effect_caps (i : Instr) (s : State) : (effect i s).caps = s.caps := by
  cases i with
  | syncScan => exact scan_caps s
  | _ => rfl

@[simp] theorem effect_commands (i : Instr) (s : State) : (effect i s).commands = s.commands := by
  cases i with
  | syncScan => exact scan_commands s
  | _ => rfl

/-- Which commands write `crc` (10_state.md R9, column "written by"). -/
theorem writes_crc {i : Instr} {s : State} (h : (effect i s).crc ≠ s.crc) :
    i = .crcInit ∨ (∃ b, i = .crcUpd b) ∨ i = .reset := by
  cases i with
  | crcInit | crcUpd | reset => simp
  | syncScan => exact absurd (scan_crc s) h
  | _ => exact absurd rfl h

/-- Which commands write `acc` (R9). -/
theorem writes_acc {i : Instr} {s : State} (h : (effect i s).acc ≠ s.acc) :
    (∃ b, i = .syncPush b) ∨ i = .syncScan ∨ i = .syncClr ∨ i = .reset := by
  cases i with
  | syncPush | syncScan | syncClr | reset => simp
  | _ => exact absurd rfl h

/-- Which commands write `outq` (R9). -/
theorem writes_outq {i : Instr} {s : State} (h : (effect i s).outq ≠ s.outq) :
    i = .syncScan ∨ i = .syncPop ∨ i = .syncClr ∨ i = .reset := by
  cases i with
  | syncScan | syncPop | syncClr | reset => simp
  | _ => exact absurd rfl h

/-- Which commands write `SR` without a fault (R9). -/
theorem writes_sr {i : Instr} {s : State} (h : (effect i s).sr ≠ s.sr) : i = .syncScan ∨ i = .clrf ∨ i = .reset := by
  cases i with
  | syncScan | clrf | reset => simp
  | _ => exact absurd rfl h

/-- Settles O55: a fault writes `SR` and its response only, and `effect` says what the other commands write. -/
theorem onlyTheListedCommandsWrite : Obligations.OnlyTheListedCommandsWrite := by
  intro i s t h
  rcases exec_cases h with ⟨f, rfl⟩ | ⟨d, rfl⟩
  · refine ⟨rfl, rfl, fun hc => absurd rfl hc, fun ha => absurd rfl ha, fun hq => absurd rfl hq, fun _ => ?_⟩
    exact .inr (.inr (.inr ⟨f.code, rfl⟩))
  · refine ⟨effect_caps i s, effect_commands i s, writes_crc, writes_acc, writes_outq, fun hsr => ?_⟩
    rcases writes_sr hsr with hi | hi | hi
    · exact .inl hi
    · exact .inr (.inl hi)
    · exact .inr (.inr (.inl hi))

/-- Settles O49: R16's table, field by field. -/
theorem resetStateHoldsTheResetValues : Obligations.ResetStateHoldsTheResetValues :=
  ⟨rfl, rfl, rfl, rfl⟩

/-! ## Which words clear a flag -/

/-- Setting a flag clears none. -/
theorem srHas_srSet_of_srHas {sr : Byte} {g : Flag} (f : Flag) (h : srHas sr g = true) :
    srHas (srSet sr f) g = true := by
  simp [h]

/-- Path A clears no flag (41_sync.md R53). -/
theorem noMarkerDiscard_keeps_flag {s : State} {f : Flag} (h : srHas s.sr f = true) :
    srHas (noMarkerDiscard s).sr f = true := by
  rcases noMarkerDiscard_cases s with ⟨_, e⟩ | ⟨_, _, e⟩ | ⟨_, e⟩ <;> rw [e]
  · exact h
  · exact srHas_srSet_of_srHas _ h
  · exact srHas_srSet_of_srHas _ h

/-- Nor does resync (R54). -/
theorem resync_keeps_flag (p : Nat) {s : State} {f : Flag} (h : srHas s.sr f = true) :
    srHas (resync p s).sr f = true := by
  rcases resync_cases p s with ⟨_, e⟩ | ⟨_, e⟩ <;> rw [e]
  · exact h
  · exact srHas_srSet_of_srHas _ h

/-- Nor does an iteration of `scan` (R52). -/
theorem scanPass_keeps_flag {s : State} {f : Flag} (h : srHas s.sr f = true) :
    srHas (scanPass s).state.sr f = true := by
  rcases scanPass_cases s with ⟨_, e⟩ | ⟨p, _, ⟨_, e⟩ | ⟨cand, _, _, _, ⟨_, e⟩ | ⟨_, _, e⟩ | ⟨_, _, e⟩⟩⟩ <;> rw [e]
  · exact noMarkerDiscard_keeps_flag h
  · exact resync_keeps_flag p h
  · exact srHas_srSet_of_srHas .badcrc (resync_keeps_flag p h)
  · exact resync_keeps_flag p h
  · exact resync_keeps_flag p h

/-- Nor does `scan` (R61). -/
theorem scan_keeps_flag {s : State} {f : Flag} (h : srHas s.sr f = true) : srHas (scan s).2.sr f = true :=
  scan_keeps_of_scanPass (P := fun u => srHas u.sr f = true) (fun _ => scanPass_keeps_flag) h

/-- Which commands clear a flag: `RESET` every flag, and `CLRF` the event flags (42_system.md R70, R71). -/
theorem clears_flag {i : Instr} {s : State} {f : Flag} (hs : srHas s.sr f = true)
    (ht : srHas (effect i s).sr f = false) : i = .reset ∨ (f.isEvent = true ∧ i = .clrf) := by
  cases i with
  | reset => exact .inl rfl
  | clrf =>
    have hevent : f.isEvent = true := by simpa [effect, hs] using ht
    exact .inr ⟨hevent, rfl⟩
  | syncScan => exact nomatch (scan_keeps_flag hs).symm.trans ht
  | _ => exact nomatch hs.symm.trans ht

/-- Settles O54: neither an idle step nor a fault clears a flag, and a command that does is one of two, which have one
word each. -/
theorem flagsAreSticky : Obligations.FlagsAreSticky := by
  intro s t f h hs ht
  rcases step_cases h with rfl | ⟨cmd, rest, hc, ⟨fault, rfl⟩ | ⟨i, d, hi, rfl⟩⟩
  · exact nomatch hs.symm.trans ht
  · exact nomatch (srHas_srSet_of_srHas fault.flag hs).symm.trans ht
  · rw [hc, List.head?_cons, ← encode_of_decode hi]
    rcases clears_flag (s := { s with commands := rest }) hs ht with rfl | ⟨hf, rfl⟩
    · exact .inl rfl
    · exact .inr ⟨hf, rfl⟩

end Sys2Proof.Machine
end

section
/-! PROOFS. The statements of 20_memory.md: a run of the words of commands is a run of the commands (O9), reads change
nothing (O56), and the Checksum Unit and the Frame Synchronizer share no state (O57). -/

namespace Sys2Proof.Machine

/-! ## The word of a command decodes to it -/

/-- `op` of an encoded command (30_encoding.md R33, R38). -/
theorem opField_encode (i : Instr) : opField (encode i) = i.op := by
  have hop := i.op.isLt
  have harg := i.operand.isLt
  apply BitVec.eq_of_toNat_eq
  simp only [opField, encode, BitVec.extractLsb'_toNat, BitVec.toNat_ofNat, Nat.shiftRight_eq_div_pow]
  omega

/-- `arg` of an encoded command. -/
theorem argField_encode (i : Instr) : argField (encode i) = i.operand := by
  have harg := i.operand.isLt
  apply BitVec.eq_of_toNat_eq
  simp only [argField, encode, BitVec.extractLsb'_toNat, BitVec.toNat_ofNat, Nat.shiftRight_zero]
  omega

/-- The word of a well-formed command decodes to that command; the one operand check is that of `SYNC.RDF` (R36). -/
theorem decode_encode {i : Instr} (h : i.wellFormed = true) : decode (encode i) = .ok i := by
  simp only [decode, opField_encode, argField_encode]
  cases i with
  | syncRdf arg => exact if_pos (eq_of_beq h)
  | _ => rfl

/-- A step that takes the word of a well-formed command executes that command (R37). -/
theorem step_of_encode {s : State} {i : Instr} {ws : List Word} (hi : i.wellFormed = true)
    (h : s.commands = encode i :: ws) : step s = exec i { s with commands := ws } := by
  rw [step_command h, runWord, decode_encode hi]

/-! ## What `scan` does not read -/

/-- The state with other values in the three fields that `scan` neither reads nor writes (`scan_frame`). -/
def withOutside (c : Word) (ws : List Word) (rs : List Response) (s : State) : State :=
  { s with crc := c, commands := ws, responses := rs }

/-- An iteration's result with its state changed. -/
def Pass.map (φ : State → State) : Pass → Pass
  | .stop code s => .stop code (φ s)
  | .again s => .again (φ s)

section
variable (c : Word) (ws : List Word) (rs : List Response)

theorem noMarkerDiscard_withOutside (s : State) :
    noMarkerDiscard (withOutside c ws rs s) = withOutside c ws rs (noMarkerDiscard s) := by
  simp only [noMarkerDiscard, apply_ite (withOutside c ws rs)]
  rfl

theorem resync_withOutside (p : Nat) (s : State) :
    resync p (withOutside c ws rs s) = withOutside c ws rs (resync p s) := by
  simp only [resync, apply_ite (withOutside c ws rs)]
  rfl

theorem judge_withOutside (cand : Frame) (s : State) :
    judge cand (withOutside c ws rs s) = (judge cand s).map (withOutside c ws rs) := by
  simp only [judge, apply_ite (Pass.map (withOutside c ws rs))]
  rfl

theorem alignedPass_withOutside (s : State) :
    alignedPass (withOutside c ws rs s) = (alignedPass s).map (withOutside c ws rs) := by
  have hacc : (withOutside c ws rs s).acc = s.acc := rfl
  simp only [alignedPass, hacc]
  cases candidate s.acc with
  | none => rfl
  | some cand => exact judge_withOutside c ws rs cand s

theorem scanPass_withOutside (s : State) :
    scanPass (withOutside c ws rs s) = (scanPass s).map (withOutside c ws rs) := by
  have hacc : (withOutside c ws rs s).acc = s.acc := rfl
  simp only [scanPass, hacc]
  cases findMarker s.acc with
  | none => exact congrArg _ (noMarkerDiscard_withOutside c ws rs s)
  | some p => exact (congrArg _ (resync_withOutside c ws rs p s)).trans (alignedPass_withOutside c ws rs _)

/-- `scan` reads neither `crc`, nor the words still to be presented, nor the responses given (41_sync.md R52, R56). -/
theorem scan_withOutside (s : State) :
    scan (withOutside c ws rs s) = ((scan s).1, withOutside c ws rs (scan s).2) := by
  refine scan_induction (motive := fun s r => scan (withOutside c ws rs s) = (r.1, withOutside c ws rs r.2))
    (fun s code t h => ?_) (fun s t h ih => ?_) s
  · exact scan_of_stop ((scanPass_withOutside c ws rs s).trans (congrArg _ h))
  · have hpass : scanPass (withOutside c ws rs s) = .again (withOutside c ws rs t) :=
      (scanPass_withOutside c ws rs s).trans (congrArg _ h)
    rw [scan_of_again hpass, scan_of_again h, ih]

end

/-! ## What a command answers -/

/-- The fault that a command raises, or the `data` that it answers with `err = 0`. -/
def answer : Instr → State → Except BlockFault Word
  | .crcRd, s => .ok s.crc
  | .syncPush _, s => if accFull s then .error .accOverflow else .ok 0
  | .syncScan, s => .ok (scan s).1.number
  | .syncRdf arg, s =>
    match frameIndex arg with
    | none => .error .illegalCommand
    | some idx =>
      match frmRead idx s with
      | none => .error .queueEmpty
      | some b => .ok (zext16 b)
  | .syncPop, s => if s.outq.length = 0 then .error .queueEmpty else .ok 0
  | .rdsr, s => .ok (zext16 s.sr)
  | .syncRdal, s => .ok (saturate16 s.acc.length)
  | .syncRdfc, s => .ok (saturate16 s.outq.length)
  | .crcInit, _ | .crcUpd _, _ | .clrf, _ | .syncClr, _ | .reset, _ => .ok 0

/-- The state after a command: that of its fault, or its writes and its response. -/
def outcome (i : Instr) (s : State) : State :=
  match answer i s with
  | .error f => raise f s
  | .ok d => respond false d (effect i s)

theorem outcome_of_error {i : Instr} {s : State} {f : BlockFault} (h : answer i s = .error f) :
    outcome i s = raise f s := by
  rw [outcome, h]

theorem outcome_of_ok {i : Instr} {s : State} {d : Word} (h : answer i s = .ok d) :
    outcome i s = respond false d (effect i s) := by
  rw [outcome, h]

/-- `answer` and `effect` say all that a command does (60_exceptions.md R73). -/
theorem exec_eq_outcome (i : Instr) (s : State) : exec i s = .next (outcome i s) := by
  cases i with
  | syncPush b => rcases execSyncPush_cases b s with ⟨h, e⟩ | ⟨h, e⟩ <;> simp [e, outcome, answer, h, effect]
  | syncPop => rcases execSyncPop_cases s with ⟨h, e⟩ | ⟨h, e⟩ <;> simp [e, outcome, answer, h, effect]
  | syncRdf arg =>
    simp only [exec, execSyncRdf, outcome, answer]
    cases frameIndex arg with
    | none => rfl
    | some idx => cases h : frmRead idx s <;> simp [h, effect]
  | _ => rfl

/-- A change of the state that commutes with faults, responses and a command's writes, and that its answer does not see,
commutes with the command. -/
theorem exec_commutes {φ : State → State} {i : Instr} {s t : State} (hraise : ∀ f, raise f (φ s) = φ (raise f s))
    (hrespond : ∀ d u, respond false d (φ u) = φ (respond false d u)) (hanswer : answer i (φ s) = answer i s)
    (heffect : effect i (φ s) = φ (effect i s)) (h : exec i s = .next t) : exec i (φ s) = .next (φ t) := by
  cases h.symm.trans (exec_eq_outcome i s)
  rw [exec_eq_outcome]
  cases ha : answer i s with
  | error f => rw [outcome_of_error ha, outcome_of_error (hanswer.trans ha), hraise]
  | ok d => rw [outcome_of_ok ha, outcome_of_ok (hanswer.trans ha), heffect, hrespond]

/-! ## No command reads the port -/

/-- No command's answer depends on the words still to be presented or on the responses given. -/
theorem answer_port (i : Instr) (ws : List Word) (rs : List Response) (s : State) :
    answer i (withOutside s.crc ws rs s) = answer i s := by
  cases i with
  | syncScan => exact congrArg (fun r => Except.ok r.1.number) (scan_withOutside s.crc ws rs s)
  | _ => rfl

/-- Nor do its writes. -/
theorem effect_port (i : Instr) (ws : List Word) (rs : List Response) (s : State) :
    effect i (withOutside s.crc ws rs s) = withOutside (effect i s).crc ws rs (effect i s) := by
  cases i with
  | syncScan =>
    calc (scan (withOutside s.crc ws rs s)).2
      _ = withOutside s.crc ws rs (scan s).2 := congrArg Prod.snd (scan_withOutside s.crc ws rs s)
      _ = withOutside (scan s).2.crc ws rs (scan s).2 := by rw [scan_crc]
  | _ => rfl

@[simp] theorem effect_responses (i : Instr) (s : State) : (effect i s).responses = s.responses := by
  cases i with
  | syncScan => exact scan_responses s
  | _ => rfl

/-- A command does the same wherever it stands in the host's stream (00_scope.md R5). -/
theorem exec_commands {i : Instr} {s t : State} (ws : List Word) (h : exec i s = .next t) :
    exec i { s with commands := ws } = .next { t with commands := ws } := by
  have hwrites : effect i (withOutside s.crc ws s.responses s) =
      withOutside (effect i s).crc ws (effect i s).responses (effect i s) := by
    rw [effect_port, effect_responses]
  exact exec_commutes (φ := fun u => withOutside u.crc ws u.responses u) (fun _ => rfl) (fun _ _ => rfl)
    (answer_port i ws s.responses s) hwrites h

/-- Settles O9, by induction on the commands: a step takes the first word and executes its command, which does the same
whether the words of the commands after it are still to be presented or not. -/
theorem runningWordsIsRunningCommands : Obligations.RunningWordsIsRunningCommands := by
  intro is s rest hwf hc
  induction is generalizing s with
  | nil =>
    cases hc
    rfl
  | cons i is ih =>
    obtain ⟨hi, his⟩ := List.forall_mem_cons.1 hwf
    obtain ⟨t, ht, htc, _⟩ := exec_answersOnce i { s with commands := is.map encode ++ rest }
    have hstep : step s = .next t := (step_of_encode hi hc).trans ht
    have hexec : exec i { s with commands := rest } = .next { t with commands := rest } :=
      exec_commands (s := { s with commands := is.map encode ++ rest }) rest ht
    rw [List.length_cons, runSteps_succ_of_next hstep, ih t his htc, execAll_cons_of_next hexec]

/-! ## Reads change nothing -/

/-- A read that does not fault only adds its response, and read again answers the same (20_memory.md R23). -/
theorem exec_read {i : Instr} {s t : State} {r : Response} (hread : ∀ u, effect i u = u) (h : exec i s = .next t)
    (hr : t.responses = s.responses ++ [r]) (herr : r.err = false) :
    t = { s with responses := s.responses ++ [r] } ∧
      exec i t = .next { t with responses := t.responses ++ [r] } := by
  cases h.symm.trans (exec_eq_outcome i s)
  cases ha : answer i s with
  | error f =>
    rw [outcome_of_error ha, raise_responses, List.append_cancel_left_eq] at hr
    cases hr
    cases herr
  | ok d =>
    rw [outcome_of_ok ha, hread] at hr ⊢
    rw [respond_responses, List.append_cancel_left_eq] at hr
    cases hr
    have hagain : answer i (respond false d s) = .ok d := (answer_port i s.commands _ s).trans ha
    refine ⟨rfl, ?_⟩
    rw [exec_eq_outcome, outcome_of_ok hagain, hread]
    rfl

/-- Resync takes bytes from the accumulator and no frame (41_sync.md R54). -/
theorem resync_outq (p : Nat) (s : State) : (resync p s).outq = s.outq := by
  rcases resync_cases p s with ⟨_, e⟩ | ⟨_, e⟩ <;> simp [e]

/-- An iteration of `scan` adds a frame at the end of the queue, or none (41_sync.md R58). -/
theorem scanPass_outq_prefix (s : State) : s.outq <+: (scanPass s).state.outq := by
  rcases scanPass_cases s with ⟨_, e⟩ | ⟨p, _, ⟨_, e⟩ | ⟨cand, _, _, _, ⟨_, e⟩ | ⟨_, _, e⟩ | ⟨_, _, e⟩⟩⟩ <;>
    simp only [e, Pass.state]
  · rcases noMarkerDiscard_cases s with ⟨_, d⟩ | ⟨_, _, d⟩ | ⟨_, d⟩ <;> simp [d]
  · simp [resync_outq]
  · simp [dropBad, resync_outq]
  · simp [resync_outq]
  · simp [resync_outq]

/-- `scan` adds frames at the end of the queue only (20_memory.md R18). -/
theorem scan_outq_prefix (s : State) : s.outq <+: (scan s).2.outq :=
  scan_keeps_of_scanPass (P := fun u => s.outq <+: u.outq) (fun u hu => hu.trans (scanPass_outq_prefix u))
    (List.prefix_refl _)

/-- The head frame stays under every command but the three that remove frames (70_reset_and_hazards.md R90). -/
theorem effect_keeps_head {i : Instr} {s : State} {f : Frame} (hpop : i ≠ .syncPop) (hclr : i ≠ .syncClr)
    (hreset : i ≠ .reset) (hf : s.outq.head? = some f) : (effect i s).outq.head? = some f := by
  by_cases hq : (effect i s).outq = s.outq
  · rw [hq, hf]
  · rcases writes_outq hq with rfl | hi | hi | hi
    · obtain ⟨emitted, e⟩ := scan_outq_prefix s
      rw [effect, ← e, List.head?_append, hf, Option.some_or]
    · exact absurd hi hpop
    · exact absurd hi hclr
    · exact absurd hi hreset

/-- Settles O56: the five reads make no write, and a fault leaves the queue. -/
theorem readsHaveNoSideEffects : Obligations.ReadsHaveNoSideEffects := by
  intro i s t h
  refine ⟨fun hread r => ?_, ?_⟩
  · have heffect : ∀ u, effect i u = u := by
      rcases hread with rfl | ⟨arg, rfl⟩ | rfl | rfl | rfl <;> exact fun _ => rfl
    exact exec_read heffect h
  · rintro ⟨hpop, hclr, hreset⟩ f hf
    rcases exec_cases h with ⟨_, rfl⟩ | ⟨_, rfl⟩
    · exact hf
    · exact effect_keeps_head hpop hclr hreset hf

/-! ## The two units share no state -/

/-- Only `CRC.RD` answers with `crc`. -/
theorem answer_setCrc {i : Instr} (c : Word) (s : State) (hrd : i ≠ .crcRd) : answer i (setCrc c s) = answer i s := by
  cases i with
  | crcRd => exact absurd rfl hrd
  | syncScan => exact congrArg (fun r => Except.ok r.1.number) (scan_withOutside c s.commands s.responses s)
  | _ => rfl

/-- The writes of a command that does not write `crc` do not depend on it (41_sync.md R56). -/
theorem effect_setCrc {i : Instr} (c : Word) (s : State) (hinit : i ≠ .crcInit) (hupd : ∀ b, i ≠ .crcUpd b)
    (hreset : i ≠ .reset) : effect i (setCrc c s) = setCrc c (effect i s) := by
  cases i with
  | crcInit => exact absurd rfl hinit
  | crcUpd b => exact absurd rfl (hupd b)
  | reset => exact absurd rfl hreset
  | syncScan =>
    calc (scan (withOutside c s.commands s.responses s)).2
      _ = withOutside c s.commands s.responses (scan s).2 :=
        congrArg Prod.snd (scan_withOutside c s.commands s.responses s)
      _ = withOutside c (scan s).2.commands (scan s).2.responses (scan s).2 := by rw [scan_commands, scan_responses]
  | _ => rfl

/-- Settles O57: the checksum commands write and read `crc` alone, and the others do the same whatever `crc` holds, so
with the `crc` they found they leave it. -/
theorem checksumAndSynchronizerShareNoState : Obligations.ChecksumAndSynchronizerShareNoState := by
  intro i s t h
  refine ⟨fun hcrc => ?_, ?_⟩
  · rcases hcrc with rfl | ⟨b, rfl⟩ | rfl <;> cases h <;> exact ⟨rfl, rfl, rfl, fun _ _ _ => rfl⟩
  · rintro ⟨hinit, hupd, hrd, hreset⟩
    have hother : ∀ c, exec i (setCrc c s) = .next (setCrc c t) := fun c =>
      exec_commutes (φ := setCrc c) (fun _ => rfl) (fun _ _ => rfl) (answer_setCrc c s hrd)
        (effect_setCrc c s hinit hupd hreset) h
    refine ⟨?_, hother⟩
    have hsame := (hother s.crc).symm.trans h
    exact (congrArg State.crc (Host.Outcome.next.inj hsame)).symm

end Sys2Proof.Machine
end

section
/-! PROOFS. The statements of 30_encoding.md: the command word and its decoder (O1 to O6, O8), the assembler (O10), the
frame and its reference encoder (O21, O22), and `SYNC.GETF` (O45). -/

namespace Sys2Proof.Machine

/-! ## The command word: legal words, and their encodings -/

/-- The fields of a word in numbers: `cmd = op * 256 + arg` (30_encoding.md R33). -/
theorem toNat_opField (cmd : Word) : (opField cmd).toNat = cmd.toNat / 256 := by
  have hop : cmd.toNat / 256 < 256 := by have := cmd.isLt; omega
  simpa [opField, Nat.shiftRight_eq_div_pow] using hop

theorem toNat_argField (cmd : Word) : (argField cmd).toNat = cmd.toNat % 256 := by
  simp [argField]

/-- A word in numbers is its high and its low byte (20_memory.md R19). -/
theorem toNat_eq_iff_bytes (w : Word) (hi lo : Byte) :
    w.toNat = hi.toNat * 256 + lo.toNat ↔ opField w = hi ∧ argField w = lo := by
  have hlo := lo.isLt
  rw [← BitVec.toNat_inj, ← BitVec.toNat_inj, toNat_opField, toNat_argField]
  omega

/-- The word of a command in numbers (R38). -/
theorem toNat_encode (i : Instr) : (encode i).toNat = i.op.toNat * 256 + i.operand.toNat :=
  (toNat_eq_iff_bytes _ _ _).2 ⟨opField_encode i, argField_encode i⟩

/-- A word is the encoding of a command exactly when its fields are the command's row and operand (R38). -/
theorem encode_eq_iff {i : Instr} {cmd : Word} :
    encode i = cmd ↔ opField cmd = i.op ∧ argField cmd = i.operand := by
  rw [← toNat_eq_iff_bytes, ← toNat_encode, BitVec.toNat_inj, eq_comm]

/-- What a word decodes to has passed its operand check (R36). -/
theorem wellFormed_of_decode {cmd : Word} {i : Instr} (h : decode cmd = .ok i) : i.wellFormed = true := by
  cases i with
  | syncRdf arg =>
    obtain ⟨hop, harg⟩ := fields_of_decode h
    simp only [decode, hop, harg] at h
    change decodeRdf arg = _ at h
    by_contra hwf
    rw [decodeRdf, if_neg (fun hidx => hwf (beq_iff_eq.2 hidx))] at h
    cases h
  | _ => rfl

/-- The decoder and the encoder are inverse to each other between the legal words and the well-formed commands. -/
theorem decode_eq_ok_iff {cmd : Word} {i : Instr} :
    decode cmd = .ok i ↔ i.wellFormed = true ∧ encode i = cmd := by
  constructor
  · exact fun h => ⟨wellFormed_of_decode h, encode_of_decode h⟩
  · rintro ⟨hwf, rfl⟩
    exact decode_encode hwf

/-- Settles O1: the fields of an encoded command select its row of the decoder, with its operand. -/
theorem decodeOfEncodeIsTheCommand : Obligations.DecodeOfEncodeIsTheCommand :=
  fun _ => decode_encode

/-- Settles O2: `decode_eq_ok_iff`, from the decoder to the encoder. -/
theorem encodeOfDecodeIsTheWord : Obligations.EncodeOfDecodeIsTheWord :=
  fun _ _ => decode_eq_ok_iff.1

/-- Settles O8: one word of each row, evaluated. -/
theorem writtenOutWordsDecode : Obligations.WrittenOutWordsDecode :=
  ⟨rfl, rfl, rfl, rfl, rfl, rfl, rfl, rfl, rfl, rfl, rfl, rfl, rfl⟩

/-! ## Mask and match -/

/-- The column `match` of R35 is `op` with `arg = 0`. -/
theorem pattern_eq (i : Instr) : i.pattern = BitVec.ofNat 16 (i.op.toNat * 256) := by
  cases i <;> simp [Instr.pattern, Instr.op]

/-- Every mask of R35 keeps the whole of `op`. -/
theorem opField_and_mask (cmd : Word) (i : Instr) : opField (cmd &&& i.mask) = opField cmd := by
  have hmask : opField i.mask = BitVec.allOnes 8 := by cases i <;> simp [opField, Instr.mask]
  have hand : opField (cmd &&& i.mask) = opField cmd &&& opField i.mask := BitVec.extractLsb'_and
  rw [hand, hmask, BitVec.and_allOnes]

/-- A word that fits a row has that row's `op`. -/
theorem opField_of_fits {cmd : Word} {i : Instr} (h : cmd &&& i.mask = i.pattern) : opField cmd = i.op := by
  rw [← opField_and_mask cmd i, h]
  cases i <;> simp [opField, Instr.pattern, Instr.op]

/-- The word of a command fits the command's row exactly when the command is well formed: only `SYNC.RDF` has operand
bits under its mask (R35, R36). -/
theorem encode_fits_iff (i : Instr) : encode i &&& i.mask = i.pattern ↔ i.wellFormed = true := by
  cases i with
  | crcUpd b => exact iff_of_true (Laws.EncodeMatchesRow.crcUpd b rfl) rfl
  | syncPush b => exact iff_of_true (Laws.EncodeMatchesRow.syncPush b rfl) rfl
  | syncRdf arg =>
    refine ⟨?_, Laws.EncodeMatchesRow.syncRdf arg⟩
    revert arg
    decide
  | _ => exact iff_of_true rfl rfl

/-- Settles O3: the mask leaves `op`, which with the operand is the whole word, and the match is `op` alone. -/
theorem decodingFollowsMaskAndMatch : Obligations.DecodingFollowsMaskAndMatch := by
  refine ⟨fun cmd i => ?_, fun cmd i j hi hj => ?_⟩
  · rw [decode_eq_ok_iff]
    constructor
    · rintro ⟨hwf, rfl⟩
      exact ⟨(encode_fits_iff i).2 hwf, (argField_encode i).symm⟩
    · rintro ⟨hfits, harg⟩
      obtain rfl : encode i = cmd := encode_eq_iff.2 ⟨opField_of_fits hfits, harg.symm⟩
      exact ⟨(encode_fits_iff i).1 hfits, rfl⟩
  · rw [pattern_eq, pattern_eq, ← opField_of_fits hi, ← opField_of_fits hj]

/-! ## The well-formed commands, in a list -/

/-- The ten commands without operand, in the order of `operandlessOps`. -/
def operandlessCommands : List Instr :=
  [.crcInit, .crcRd, .syncScan, .syncPop, .rdsr, .clrf, .syncRdal, .syncRdfc, .syncClr, .reset]

/-- They are the rows of R36's operand-less commands. -/
theorem map_op_operandlessCommands : operandlessCommands.map (fun i => i.op.toNat) = operandlessOps := rfl

/-- They are well formed and encoded with `arg = 0` (R35). -/
theorem wellFormed_operandless : ∀ i ∈ operandlessCommands, i.wellFormed = true ∧ i.operand = 0#8 := by
  decide

/-- The operands 0 to `n - 1`. -/
def operandsBelow (n : Nat) : List Byte := (List.range n).map (BitVec.ofNat 8)

theorem length_operandsBelow (n : Nat) : (operandsBelow n).length = n := by simp [operandsBelow]

theorem mem_operandsBelow {n : Nat} (hn : n ≤ 256) {b : Byte} : b ∈ operandsBelow n ↔ b.toNat < n := by
  simp only [operandsBelow, List.mem_map, List.mem_range]
  constructor
  · rintro ⟨k, hk, rfl⟩
    rw [BitVec.toNat_ofNat]
    omega
  · exact fun h => ⟨b.toNat, h, by simp⟩

theorem nodup_operandsBelow {n : Nat} (hn : n ≤ 256) : (operandsBelow n).Nodup := by
  refine List.nodup_range.map_on fun j hj k hk h => ?_
  have hjk := congrArg BitVec.toNat h
  simp only [List.mem_range, BitVec.toNat_ofNat] at hj hk hjk
  omega

/-- The commands that some word carries (R35, R38). -/
def legalCommands : List Instr :=
  operandlessCommands ++ ((operandsBelow 256).map .crcUpd ++
    ((operandsBelow 256).map .syncPush ++ (operandsBelow 64).map .syncRdf))

/-- The list holds exactly the well-formed commands. -/
theorem mem_legalCommands {i : Instr} : i ∈ legalCommands ↔ i.wellFormed = true := by
  cases i with
  | crcUpd b => simpa [legalCommands, operandlessCommands, mem_operandsBelow, Instr.wellFormed] using b.isLt
  | syncPush b => simpa [legalCommands, operandlessCommands, mem_operandsBelow, Instr.wellFormed] using b.isLt
  | syncRdf arg => simp [legalCommands, operandlessCommands, mem_operandsBelow, wellFormed_rdf_iff]
  | _ => simp [legalCommands, operandlessCommands, Instr.wellFormed]

/-- No command stands in it twice: its four parts have different constructors. -/
theorem nodup_legalCommands : legalCommands.Nodup := by
  have hupd : ((operandsBelow 256).map Instr.crcUpd).Nodup :=
    (nodup_operandsBelow le_rfl).map fun _ _ => Instr.crcUpd.inj
  have hpush : ((operandsBelow 256).map Instr.syncPush).Nodup :=
    (nodup_operandsBelow le_rfl).map fun _ _ => Instr.syncPush.inj
  have hrdf : ((operandsBelow 64).map Instr.syncRdf).Nodup :=
    (nodup_operandsBelow (by decide)).map fun _ _ => Instr.syncRdf.inj
  refine List.Nodup.append (by decide) (hupd.append (hpush.append hrdf ?_) ?_) ?_
  all_goals simp [List.Disjoint, operandlessCommands]

/-- 10 commands without operand, 256 of `CRC.UPD`, 256 of `SYNC.PUSH` and 64 of `SYNC.RDF` (R36). -/
theorem length_legalCommands : legalCommands.length = 586 := by
  simp [legalCommands, length_operandsBelow, operandlessCommands]

/-- Settles O5: the words of the well-formed commands, which differ since each decodes to its command. -/
theorem legalWordsNumber586 : Obligations.LegalWordsNumber586 := by
  refine ⟨legalCommands.map encode, ?_, ?_, fun cmd => ?_⟩
  · rw [List.length_map, length_legalCommands]
  · refine nodup_legalCommands.map_on fun i hi j hj h => ?_
    have hdecode := congrArg decode h
    rw [decode_encode (mem_legalCommands.1 hi), decode_encode (mem_legalCommands.1 hj)] at hdecode
    exact Except.ok.inj hdecode
  · simp only [List.mem_map, mem_legalCommands, decode_eq_ok_iff]

/-! ## Reserved words -/

/-- A word that decodes is none of R36's reserved words. -/
theorem not_isReserved_of_decode {cmd : Word} {i : Instr} (h : decode cmd = .ok i) : ¬ IsReserved cmd := by
  obtain ⟨hop, harg⟩ := fields_of_decode h
  rw [IsReserved, ← toNat_opField, ← toNat_argField, hop, harg]
  cases i with
  | syncRdf arg =>
    have hidx := (wellFormed_rdf_iff arg).1 (wellFormed_of_decode h)
    simpa [operandlessOps, Instr.op, Instr.operand] using hidx
  | _ => simp [operandlessOps, Instr.op, Instr.operand]

/-- A word that is none of R36's reserved words decodes. -/
theorem decode_of_not_isReserved {cmd : Word} (h : ¬ IsReserved cmd) :
    ∃ i : Instr, i.wellFormed = true ∧ decode cmd = .ok i := by
  suffices hrow : ∃ i : Instr, i.wellFormed = true ∧ opField cmd = i.op ∧ argField cmd = i.operand by
    obtain ⟨i, hwf, hfields⟩ := hrow
    exact ⟨i, hwf, decode_eq_ok_iff.2 ⟨hwf, encode_eq_iff.2 hfields⟩⟩
  rw [IsReserved, ← toNat_opField, ← toNat_argField] at h
  push Not at h
  obtain ⟨hmap, hplain, hidx⟩ := h
  rw [List.mem_append] at hmap
  rcases hmap with hop | hop
  · obtain ⟨i, hi, hiop⟩ := List.mem_map.1 (map_op_operandlessCommands ▸ hop)
    obtain ⟨hwf, harg⟩ := wellFormed_operandless i hi
    exact ⟨i, hwf, BitVec.eq_of_toNat_eq hiop.symm, harg ▸ BitVec.eq_of_toNat_eq (hplain hop)⟩
  · simp only [List.mem_cons, List.not_mem_nil, or_false] at hop
    rcases hop with hop | hop | hop
    · exact ⟨.crcUpd (argField cmd), rfl, BitVec.eq_of_toNat_eq hop, rfl⟩
    · exact ⟨.syncPush (argField cmd), rfl, BitVec.eq_of_toNat_eq hop, rfl⟩
    · exact ⟨.syncRdf (argField cmd), (wellFormed_rdf_iff _).2 (hidx hop), BitVec.eq_of_toNat_eq hop, rfl⟩

/-- A step that takes a word that does not decode raises `IllegalCommand` (R37): `SR.ILL`, the response `(1, 1)` and
nothing else (60_exceptions.md R72, R73). -/
theorem step_of_decode_error {s : State} {cmd : Word} {rest : List Word} {e : DecodeError}
    (hc : s.commands = cmd :: rest) (h : decode cmd = .error e) :
    step s = .next { s with commands := rest, sr := s.sr ||| 0x20#8, responses := s.responses ++ [⟨true, 1⟩] } := by
  rw [step_command hc, runWord, h]
  rfl

/-- A step that takes a word that decodes (R37). -/
theorem step_of_decode_ok {s : State} {cmd : Word} {rest : List Word} {i : Instr}
    (hc : s.commands = cmd :: rest) (h : decode cmd = .ok i) : step s = exec i { s with commands := rest } := by
  rw [step_command hc, runWord, h]

/-- Settles O6: `runWord` on each answer of the decoder. -/
theorem stepRunsTheDecodedCommand : Obligations.StepRunsTheDecodedCommand :=
  fun _ _ _ hc => ⟨fun _ => step_of_decode_ok hc, fun _ => step_of_decode_error hc, .reservedIndex 0x40, rfl⟩

/-- Settles O4: a reserved word does not decode, and R36 lists every word that does not. -/
theorem reservedWordsRaiseIllegalCommand : Obligations.ReservedWordsRaiseIllegalCommand := by
  refine fun s cmd rest hc => ⟨fun hreserved => ?_, decode_of_not_isReserved⟩
  cases h : decode cmd with
  | ok i => exact absurd hreserved (not_isReserved_of_decode h)
  | error e => exact step_of_decode_error hc h

/-! ## The assembler -/

/-- A number below 256 as a byte. -/
theorem toNat_byte {n : Nat} (h : n < 256) : (BitVec.ofNat 8 n).toNat = n :=
  (BitVec.toNat_ofNat n 8).trans (Nat.mod_eq_of_lt h)

/-- The mnemonics without operand are those of the ten commands of the list (R38). -/
theorem mem_operandlessCommands_of_plainCommand {m : List Char} {i : Instr} (h : plainCommand m = some i) :
    i ∈ operandlessCommands := by
  unfold plainCommand at h
  repeat' split at h
  all_goals cases h <;> decide

/-- A command the assembler makes of a mnemonic and a number: one of three rows, with the number in range (R38). -/
theorem operandCommand_cases {m : List Char} {n : Nat} {i : Instr} (h : operandCommand m n = some i) :
    (m = "CRC.UPD".toList ∧ n ≤ 255 ∧ i = .crcUpd (BitVec.ofNat 8 n)) ∨
      (m = "SYNC.PUSH".toList ∧ n ≤ 255 ∧ i = .syncPush (BitVec.ofNat 8 n)) ∨
        (m = "SYNC.RDF".toList ∧ n ≤ 63 ∧ i = .syncRdf (BitVec.ofNat 8 n)) := by
  have hrange {bound : Nat} {j : Instr} (h : (if n ≤ bound then some j else none) = some i) : n ≤ bound ∧ i = j := by
    rw [Option.ite_none_right_eq_some] at h
    exact ⟨h.1, (Option.some.inj h.2).symm⟩
  unfold operandCommand at h
  split at h
  next hm => exact .inl ⟨hm, hrange h⟩
  split at h
  next hm => exact .inr (.inl ⟨hm, hrange h⟩)
  split at h
  next hm => exact .inr (.inr ⟨hm, hrange h⟩)
  cases h

/-- Such a command is well formed, the number is its operand, and its mnemonic has no command without operand. -/
theorem operandCommand_spec {m : List Char} {n : Nat} {i : Instr} (h : operandCommand m n = some i) :
    i.wellFormed = true ∧ n < 256 ∧ i.operand.toNat = n ∧ plainCommand m = none := by
  rcases operandCommand_cases h with ⟨rfl, hn, rfl⟩ | ⟨rfl, hn, rfl⟩ | ⟨rfl, hn, rfl⟩
  · exact ⟨rfl, by omega, toNat_byte (by omega), rfl⟩
  · exact ⟨rfl, by omega, toNat_byte (by omega), rfl⟩
  · have hoperand : (BitVec.ofNat 8 n).toNat = n := toNat_byte (by omega)
    exact ⟨(wellFormed_rdf_iff _).2 (by omega), by omega, hoperand, rfl⟩

/-- Settles O10: the mnemonics evaluate, and the two tables of the assembler share none. -/
theorem assemblerRefusesOperandsOutOfRange : Obligations.AssemblerRefusesOperandsOutOfRange := by
  refine ⟨fun n => ⟨rfl, rfl, rfl⟩, rfl, fun m n => ⟨fun i h => ?_, fun hn => ?_, fun i h => ?_⟩⟩
  · obtain ⟨hwf, hn, hoperand, hplain⟩ := operandCommand_spec h
    exact ⟨hwf, hn, by rw [toNat_encode, hoperand], hplain⟩
  · refine Option.eq_none_iff_forall_ne_some.2 fun i h => ?_
    obtain ⟨_, hlt, _⟩ := operandCommand_spec h
    omega
  · obtain ⟨_, hoperand⟩ := wellFormed_operandless i (mem_operandlessCommands_of_plainCommand h)
    refine ⟨Option.eq_none_iff_forall_ne_some.2 fun j hj => ?_, by simp [toNat_encode, hoperand]⟩
    obtain ⟨_, _, _, hplain⟩ := operandCommand_spec hj
    cases h.symm.trans hplain

/-! ## The frame -/

/-- A frame has 64 bytes (R27). -/
theorem length_frame (f : Frame) : f.toList.length = 64 := f.length_toList

/-- The bytes of a frame from `k` on are byte `k` and those after it. -/
theorem drop_eq_cons (f : Frame) {k : Nat} (hk : k < 64) : f.toList.drop k = f[k] :: f.toList.drop (k + 1) :=
  List.drop_eq_getElem_cons (by simpa using hk)

/-- The covered bytes are the 58 from byte 4 on (30_encoding.md R29). -/
theorem coveredBytes_eq (f : Frame) : coveredBytes f = (f.toList.drop 4).take 58 := List.drop_take

/-- A frame is its first four bytes, its covered bytes and its last two (R27). -/
theorem toList_eq_parts (f : Frame) :
    f.toList = [f[0], f[1], f[2], f[3]] ++ coveredBytes f ++ [f[62], f[63]] := by
  have hfirst : f.toList.drop 0 = [f[0], f[1], f[2], f[3]] ++ f.toList.drop 4 := by
    rw [drop_eq_cons f (by decide), drop_eq_cons f (by decide), drop_eq_cons f (by decide),
      drop_eq_cons f (by decide)]
    rfl
  have hlast : f.toList.drop 62 = [f[62], f[63]] := by
    rw [drop_eq_cons f (by decide), drop_eq_cons f (by decide), List.drop_eq_nil_of_le (length_frame f).le]
  have hcovered : f.toList.drop 4 = coveredBytes f ++ f.toList.drop 62 := by
    rw [coveredBytes_eq, ← List.drop_drop (i := 58) (j := 4), List.take_append_drop]
  rw [List.append_assoc, ← hlast, ← hcovered, ← hfirst, List.drop_zero]

/-- The covered bytes by the layout of R27: command code, response code, reserved byte, payload. -/
theorem coveredBytes_eq_cons (f : Frame) :
    coveredBytes f = f[4] :: f[5] :: f[6] :: (f.toList.drop 7).take 55 := by
  rw [coveredBytes_eq, drop_eq_cons f (by decide), drop_eq_cons f (by decide), drop_eq_cons f (by decide)]
  rfl

/-- `marker_ok`, byte by byte (R28). -/
theorem markerOk_iff (f : Frame) :
    markerOk f = true ↔ f[0] = 0x01 ∧ f[1] = 0x02 ∧ f[2] = 0x03 ∧ f[3] = 0x04 := by
  rw [markerOk, toList_eq_parts, beginsWithMarker_iff]
  simp

/-- The stored checksum in numbers: big-endian (20_memory.md R19). -/
theorem toNat_storedChecksum (f : Frame) : (storedChecksum f).toNat = f[62].toNat * 256 + f[63].toNat := by
  have hhi := f[62].isLt
  have hlo := f[63].isLt
  have hshift : (zext16 f[62] <<< 8).toNat = f[62].toNat <<< 8 := by
    simp only [zext16, BitVec.toNat_shiftLeft, BitVec.toNat_setWidth, Nat.shiftLeft_eq]
    omega
  have hzext : (zext16 f[63]).toNat = f[63].toNat := by
    rw [zext16, BitVec.toNat_setWidth]
    omega
  rw [storedChecksum, BitVec.toNat_or, hshift, hzext, ← Nat.shiftLeft_add_eq_or_of_lt hlo, Nat.shiftLeft_eq]

/-- `crc_ok` in numbers (R29). -/
theorem crcOk_iff (f : Frame) :
    crcOk f = true ↔ (checksum (coveredBytes f)).toNat = f[62].toNat * 256 + f[63].toNat := by
  rw [crcOk, beq_iff_eq, ← BitVec.toNat_inj, toNat_storedChecksum]

/-- Validity is the two tests together (R30). -/
theorem valid_iff (f : Frame) : valid f = true ↔ markerOk f = true ∧ crcOk f = true := Bool.and_eq_true_iff

/-- Settles O21: marker and checksum, byte by byte, and their conjunction (R30). -/
theorem validityIsMarkerAndChecksum : Obligations.ValidityIsMarkerAndChecksum :=
  fun f => ⟨markerOk_iff f, coveredBytes_eq f ▸ crcOk_iff f, valid_iff f⟩

/-- The covered bytes between the marker and their checksum, high byte first (R29, R32). -/
def framed (body : List Byte) : List Byte :=
  Constants.marker ++ body ++ [opField (checksum body), argField (checksum body)]

/-- `encode'` frames its operands, the payload padded with zeros (R32). -/
theorem encodeFrame'_eq (command response reserved : Byte) (payload : List Byte) :
    encodeFrame' command response reserved payload =
      framed (command :: response :: reserved :: (payload ++ List.replicate (55 - payload.length) 0x00)) := rfl

/-- A frame is valid exactly when it is its own covered bytes, framed: nothing else is checked (R31). -/
theorem valid_iff_framed (f : Frame) : valid f = true ↔ f.toList = framed (coveredBytes f) := by
  rw [valid_iff, markerOk_iff, crcOk_iff, toNat_eq_iff_bytes, toList_eq_parts f, framed]
  simp [Constants.marker, eq_comm, and_assoc]

/-- What is framed is what the checksum covers. -/
theorem coveredBytes_of_framed {f : Frame} {body : List Byte} (hlen : body.length = 58)
    (h : f.toList = framed body) : coveredBytes f = body := by
  rw [coveredBytes_eq, h, framed, Constants.marker]
  simp [hlen]

/-- 58 bytes, framed, are a frame, and a valid one. -/
theorem exists_valid_frame {body : List Byte} (hlen : body.length = 58) :
    ∃ f : Frame, f.toList = framed body ∧ valid f = true ∧ coveredBytes f = body := by
  have hsize : (framed body).toArray.size = 64 := by simp [framed, Constants.marker, hlen]
  have hf : (⟨(framed body).toArray, hsize⟩ : Frame).toList = framed body := rfl
  have hbody := coveredBytes_of_framed hlen hf
  exact ⟨_, hf, (valid_iff_framed _).2 (hbody.symm ▸ hf), hbody⟩

/-- Settles O22: `encode'` frames 58 bytes of the layout of R27, and a valid frame is its own covered bytes, framed. -/
theorem encodedFramesAreValid : Obligations.EncodedFramesAreValid := by
  refine ⟨fun command response reserved payload hlen => ⟨rfl, ?_⟩, fun f hvalid => ?_⟩
  · have hbody : (command :: response :: reserved ::
        (payload ++ List.replicate (55 - payload.length) 0x00)).length = 58 := by
      simp only [List.length_cons, List.length_append, List.length_replicate]
      omega
    obtain ⟨f, hf, hvalid, hcovered⟩ := exists_valid_frame hbody
    rw [coveredBytes_eq_cons] at hcovered
    injection hcovered with hcommand hcovered
    injection hcovered with hresponse hcovered
    injection hcovered with hreserved hpayload
    exact ⟨f, hf, hvalid, hcommand, hresponse, hreserved, hpayload⟩
  · have hpayload : ((f.toList.drop 7).take 55).length = 55 := by
      rw [List.length_take, List.length_drop, length_frame]
      rfl
    rw [encodeFrame'_eq, hpayload, Nat.sub_self, List.replicate_zero, List.append_nil, ← coveredBytes_eq_cons]
    exact (valid_iff_framed f).1 hvalid

/-! ## `SYNC.GETF` -/

/-- The state with a response `(0, byte)` more for each of the bytes, in order. -/
def answering (bs : List Byte) (s : State) : State :=
  { s with responses := s.responses ++ bs.map fun b => ⟨false, BitVec.ofNat 16 b.toNat⟩ }

@[simp] theorem answering_nil (s : State) : answering [] s = s := by simp [answering]

/-- One byte more is one response more. -/
theorem answering_concat (bs : List Byte) (b : Byte) (s : State) :
    answering (bs ++ [b]) s = respond false (zext16 b) (answering bs s) := by
  simp [answering, respond, zext16]

/-- `SYNC.RDF k` with a frame waiting answers byte `k` of the head frame (41_sync.md R62). -/
theorem exec_syncRdf_of_frame {s : State} {f : Frame} {fs : List Frame} (h : s.outq = f :: fs) {k : Nat}
    (hk : k < 64) : exec (.syncRdf (BitVec.ofNat 8 k)) s = .next (respond false (zext16 f[k]) s) := by
  have harg : (BitVec.ofNat 8 k).toNat = k := toNat_byte (by omega)
  rcases execSyncRdf_cases (BitVec.ofNat 8 k) s with ⟨hge, _⟩ | ⟨_, hnil, _⟩ | ⟨g, gs, i, hi, hq, e⟩
  · omega
  · cases h.symm.trans hnil
  · cases h.symm.trans hq
    obtain rfl : k = i.val := harg.symm.trans hi
    exact e

/-- The reads of bytes 0 to `k - 1` of the head frame, by induction on `k`: no read changes the queue. -/
theorem execAll_reads {s : State} {f : Frame} {fs : List Frame} (h : s.outq = f :: fs) {k : Nat} (hk : k ≤ 64) :
    execAll ((List.range k).map fun i => .syncRdf (BitVec.ofNat 8 i)) s =
      .next (answering (f.toList.take k) s) := by
  induction k with
  | zero => simp
  | succ k ih =>
    have hbytes : f.toList.take (k + 1) = f.toList.take k ++ [f[k]] :=
      List.take_succ_eq_append_getElem (by simpa using hk)
    have hread : exec (.syncRdf (BitVec.ofNat 8 k)) (answering (f.toList.take k) s) =
        .next (answering (f.toList.take (k + 1)) s) := by
      rw [hbytes, answering_concat]
      exact exec_syncRdf_of_frame (s := answering _ s) h hk
    rw [List.range_succ, List.map_append, execAll_append_of_next (ih (by omega)), List.map_singleton,
      execAll_cons_of_next hread, execAll_nil]

/-- Settles O45: 64 reads of the frame that stays at the head, and the pop. -/
theorem syncGetfTakesTheHeadFrame : Obligations.SyncGetfTakesTheHeadFrame := by
  intro s f fs h
  have hall : f.toList.take 64 = f.toList := List.take_of_length_le (length_frame f).le
  have hreads := hall ▸ execAll_reads h le_rfl
  rw [syncGetf, execAll_append_of_next hreads]
  rcases execSyncPop_cases (answering f.toList s) with ⟨hnil, _⟩ | ⟨_, hpop⟩
  · cases h.symm.trans hnil
  · rw [execAll_cons_of_next hpop, execAll_nil]
    simp [respond, outqDrop, answering, h]

end Sys2Proof.Machine
end

section
/-! PROOFS. The statements of 40_crc.md: the checksum commands (O11 to O13, O16), the register's rounds and bytes (O14,
O15), and what the checksum detects (O18 to O20). -/

namespace Sys2Proof.Machine

/-! ## The words of the checksum commands -/

/-- `match + arg` is the word of the row's `op` with that `arg` (30_encoding.md R33, R35). -/
theorem fields_pattern_add (i : Instr) (arg : Byte) :
    opField (i.pattern + arg.setWidth 16) = i.op ∧ argField (i.pattern + arg.setWidth 16) = arg := by
  have hop := i.op.isLt
  have harg := arg.isLt
  rw [← toNat_eq_iff_bytes, pattern_eq, BitVec.toNat_add, BitVec.toNat_ofNat, BitVec.toNat_setWidth]
  omega

/-- A command without operand has its row's match as its only word: with any other `arg` the row is reserved (R36). -/
theorem isTheOnlyWordOf_pattern {i : Instr} (hi : i ∈ operandlessCommands) : IsTheOnlyWordOf i.pattern i := by
  obtain ⟨hwf, hoperand⟩ := wellFormed_operandless i hi
  have hencode : encode i = i.pattern := by rw [encode, pattern_eq, hoperand, BitVec.toNat_zero, Nat.add_zero]
  refine ⟨fun w => ?_, fun arg harg => ?_⟩
  · rw [decode_eq_ok_iff, hencode, and_iff_right hwf, eq_comm]
  · obtain ⟨hopField, hargField⟩ := fields_pattern_add i arg
    have hreserved : IsReserved (i.pattern + arg.setWidth 16) := by
      refine .inr (.inl ⟨?_, ?_⟩)
      · rw [← toNat_opField, hopField, ← map_op_operandlessCommands]
        exact List.mem_map_of_mem hi
      · rw [← toNat_argField, hargField]
        exact fun h => harg (BitVec.eq_of_toNat_eq h)
    refine ⟨hreserved, ?_⟩
    cases hdecode : decode (i.pattern + arg.setWidth 16) with
    | ok j => exact absurd hreserved (not_isReserved_of_decode hdecode)
    | error e => exact ⟨e, rfl⟩

/-- Settles O11: 0x0100 is the match of the row, and R46's one write. -/
theorem crcInitStartsAChecksum : Obligations.CrcInitStartsAChecksum :=
  ⟨isTheOnlyWordOf_pattern (i := .crcInit) (by decide), fun _ => rfl⟩

/-- Settles O12: 0x0200 is the match of the row and the byte its operand, and R47's one write. -/
theorem crcUpdContinuesTheChecksum : Obligations.CrcUpdContinuesTheChecksum :=
  fun b => ⟨decode_eq_ok_iff.2 ⟨rfl, encode_eq_iff.2 (fields_pattern_add (.crcUpd b) b)⟩, fun _ => rfl⟩

/-- Settles O13: 0x0300 is the match of the row, and R48 writes nothing. -/
theorem crcRdReadsTheRegister : Obligations.CrcRdReadsTheRegister :=
  ⟨isTheOnlyWordOf_pattern (i := .crcRd) (by decide), fun _ => rfl⟩

/-! ## The two bytes of a word under XOR -/

@[simp] theorem opField_xor (v w : Word) : opField (v ^^^ w) = opField v ^^^ opField w := BitVec.extractLsb'_xor

@[simp] theorem argField_xor (v w : Word) : argField (v ^^^ w) = argField v ^^^ argField w := BitVec.extractLsb'_xor

/-- A byte zero-extended, and the same in bits 15 to 8 (00_scope.md R7), in numbers. -/
theorem toNat_zext16 (b : Byte) : (zext16 b).toNat = b.toNat := by
  rw [zext16, BitVec.toNat_setWidth]
  omega

theorem toNat_zext16_shiftLeft (b : Byte) : (zext16 b <<< 8).toNat = b.toNat * 256 := by
  rw [BitVec.toNat_shiftLeft, toNat_zext16, Nat.shiftLeft_eq]
  omega

/-- The byte stands in the low byte alone. -/
theorem fields_zext16 (b : Byte) : opField (zext16 b) = 0#8 ∧ argField (zext16 b) = b := by
  rw [← toNat_eq_iff_bytes, toNat_zext16, BitVec.toNat_zero, Nat.zero_mul, Nat.zero_add]

/-- The byte stands in the high byte alone. -/
theorem fields_zext16_shiftLeft (b : Byte) : opField (zext16 b <<< 8) = b ∧ argField (zext16 b <<< 8) = 0#8 := by
  rw [← toNat_eq_iff_bytes, toNat_zext16_shiftLeft, BitVec.toNat_zero, Nat.add_zero]

@[simp] theorem opField_zext16 (b : Byte) : opField (zext16 b) = 0#8 := (fields_zext16 b).1
@[simp] theorem argField_zext16 (b : Byte) : argField (zext16 b) = b := (fields_zext16 b).2
@[simp] theorem opField_zext16_shiftLeft (b : Byte) : opField (zext16 b <<< 8) = b := (fields_zext16_shiftLeft b).1
@[simp] theorem argField_zext16_shiftLeft (b : Byte) : argField (zext16 b <<< 8) = 0#8 := (fields_zext16_shiftLeft b).2

/-- A word is 0 exactly when both its bytes are. -/
theorem eq_zero_iff_fields (w : Word) : w = 0#16 ↔ opField w = 0#8 ∧ argField w = 0#8 := by
  rw [← toNat_eq_iff_bytes, ← BitVec.toNat_inj]
  rfl

/-! ## One round -/

/-- Settles O14: bit 15 of a 16-bit value is set exactly when the value is 32768 or more (R41). -/
theorem crcRoundShiftsAndReduces : Obligations.CrcRoundShiftsAndReduces := by
  intro r
  have hbit : r.getLsbD 15 = decide (32768 ≤ r.toNat) := BitVec.msb_eq_decide r
  have hshift : (r <<< 1).toNat = 2 * r.toNat % 65536 := by
    rw [BitVec.toNat_shiftLeft, Nat.shiftLeft_eq, Nat.mul_comm, pow_one]
  simp only [crcRound, hbit, decide_eq_true_eq]
  split
  · rw [BitVec.toNat_xor, hshift]
    rfl
  · omega

/-- A round with bit 15 clear only doubles. -/
theorem toNat_crcRound_of_lt {r : Word} (h : r.toNat < 32768) : (crcRound r).toNat = 2 * r.toNat := by
  rw [crcRoundShiftsAndReduces, if_neg (by omega)]

/-- What a round XORs into the shifted register, by the bit shifted out (R41). -/
def reduction (bit : Bool) : Word := if bit then Constants.crcPoly else 0#16

theorem crcRound_eq_xor_reduction (r : Word) : crcRound r = (r <<< 1) ^^^ reduction (r.getLsbD 15) := by
  rw [crcRound, reduction]
  cases r.getLsbD 15
  · exact BitVec.xor_zero.symm
  · rfl

/-- Of two bits shifted out, both set cancel. -/
theorem reduction_xor (p q : Bool) : reduction (p ^^ q) = reduction p ^^^ reduction q := by
  revert p q
  decide

/-- A round is linear over XOR, as the shift and the reduction are. -/
theorem crcRound_xor (a b : Word) : crcRound (a ^^^ b) = crcRound a ^^^ crcRound b := by
  simp only [crcRound_eq_xor_reduction, BitVec.getLsbD_xor, BitVec.shiftLeft_xor_distrib, reduction_xor]
  ac_rfl

/-- No register but 0 goes to 0 in a round: the polynomial is odd, and a doubled register is even. -/
theorem eq_zero_of_crcRound_eq_zero {r : Word} (h : crcRound r = 0#16) : r = 0#16 := by
  have hnat := crcRoundShiftsAndReduces r
  rw [h, BitVec.toNat_zero] at hnat
  apply BitVec.eq_of_toNat_eq
  split at hnat
  · have hpoly : 2 * r.toNat % 65536 = 0x1021 := Nat.xor_eq_zero_iff.1 hnat.symm
    omega
  · simpa using hnat

/-- A round loses nothing: by linearity, registers that a round makes equal differ by one that it makes 0. -/
theorem crcRound_injective : Function.Injective crcRound := by
  intro a b h
  refine BitVec.xor_eq_zero_iff.1 (eq_zero_of_crcRound_eq_zero ?_)
  rw [crcRound_xor, h, BitVec.xor_self]

/-! ## Many rounds, and one byte -/

theorem crcRounds_eq_iterate (n : Nat) (r : Word) : crcRounds n r = crcRound^[n] r := by
  induction n generalizing r with
  | zero => rfl
  | succ n ih => exact ih (crcRound r)

/-- Settles O15: R42's XOR reaches bits 15 to 8 only. -/
theorem crcByteIsEightRounds : Obligations.CrcByteIsEightRounds := by
  refine fun r b => ⟨r ^^^ (zext16 b <<< 8), ?_, ?_, crcRounds_eq_iterate 8 _⟩
  · change opField _ = opField r ^^^ b
    simp
  · change argField _ = argField r
    simp

theorem crcRounds_injective (n : Nat) : Function.Injective (crcRounds n) := by
  rw [funext (crcRounds_eq_iterate n)]
  exact crcRound_injective.iterate n

theorem crcRounds_zero_right (n : Nat) : crcRounds n 0#16 = 0#16 := by
  induction n with
  | zero => rfl
  | succ n ih => exact ih

theorem crcRounds_xor (n : Nat) (a b : Word) : crcRounds n (a ^^^ b) = crcRounds n a ^^^ crcRounds n b := by
  induction n generalizing a b with
  | zero => rfl
  | succ n ih => simp only [crcRounds, crcRound_xor, ih]

/-- Rounds in which no set bit reaches bit 15 only shift. -/
theorem toNat_crcRounds_of_lt {n : Nat} {r : Word} (h : r.toNat * 2 ^ n < 65536) :
    (crcRounds n r).toNat = r.toNat * 2 ^ n := by
  induction n generalizing r with
  | zero => simp [crcRounds]
  | succ n ih =>
    have hpow : 1 ≤ 2 ^ n := Nat.one_le_two_pow
    rw [pow_succ'] at h ⊢
    have hround : (crcRound r).toNat = 2 * r.toNat := toNat_crcRound_of_lt (by nlinarith)
    rw [crcRounds, ih (by rw [hround]; linarith), hround]
    ring

/-- Eight rounds carry the low byte of a register whose high byte is 0 into the high byte. -/
theorem crcRounds_zext16 (b : Byte) : crcRounds 8 (zext16 b) = zext16 b <<< 8 := by
  have hb := b.isLt
  apply BitVec.eq_of_toNat_eq
  rw [toNat_crcRounds_of_lt (by rw [toNat_zext16]; omega), toNat_zext16, toNat_zext16_shiftLeft]
  rfl

/-- Different registers stay different through the same byte. -/
theorem crcByte_injective_register (b : Byte) : Function.Injective (crcByte · b) :=
  fun _ _ h => (BitVec.xor_left_inj _).1 (crcRounds_injective 8 h)

/-- Different bytes make the same register different. -/
theorem crcByte_injective_byte (r : Word) : Function.Injective (crcByte r) := by
  intro a b h
  have hshift : zext16 a <<< 8 = zext16 b <<< 8 := (BitVec.xor_right_inj _).1 (crcRounds_injective 8 h)
  simpa using congrArg opField hshift

/-! ## What the checksum detects -/

/-- Different registers stay different through the same bytes. -/
theorem crcBytes_injective (bs : List Byte) : Function.Injective (crcBytes · bs) := by
  induction bs with
  | nil => exact fun _ _ h => h
  | cons b bs ih => exact fun _ _ h => crcByte_injective_register b (ih h)

/-- The checksum of messages that differ in one byte differs. -/
theorem checksum_ne_of_byte_ne (front back : List Byte) {x y : Byte} (h : x ≠ y) :
    checksum (front ++ x :: back) ≠ checksum (front ++ y :: back) := by
  intro heq
  simp only [checksum, crcBytes_append] at heq
  exact h (crcByte_injective_byte _ (crcBytes_injective back heq))

/-- Flipping a bit changes a byte. -/
theorem flip_ne_self (b : Byte) {k : Nat} (hk : k < 8) : b ^^^ (1#8 <<< k) ≠ b := by
  intro h
  have hbit := congrArg (·.getLsbD k) h
  simp [hk] at hbit

/-- Settles O20: a single-bit change is a change of one byte. -/
theorem singleBitChangesChangeTheChecksum : Obligations.SingleBitChangesChangeTheChecksum := by
  intro a i k hlen hi hk
  have hi' : i < a.length := hlen ▸ hi
  have hsplit : a = a.take i ++ a[i] :: a.drop (i + 1) := by simp
  rw [List.modify_eq_take_cons_drop hi']
  conv_rhs => rw [hsplit]
  exact checksum_ne_of_byte_ne _ _ (flip_ne_self _ hk)

/-- Two bytes are sixteen rounds on the register with both XORed in at once: the second enters the register's high byte
after eight rounds, which is where eight rounds carry it from the low byte. -/
theorem crcBytes_pair (r : Word) (hi lo : Byte) :
    crcBytes r [hi, lo] = crcRounds 8 (crcRounds 8 (r ^^^ (zext16 hi <<< 8) ^^^ zext16 lo)) := by
  rw [crcRounds_xor 8 _ (zext16 lo), crcRounds_zext16]
  rfl

/-- A message with two bytes more has checksum 0 exactly when they are its checksum, high byte first (R45 (a)). -/
theorem checksum_append_pair_eq_zero_iff (m : List Byte) (hi lo : Byte) :
    checksum (m ++ [hi, lo]) = 0#16 ↔ opField (checksum m) = hi ∧ argField (checksum m) = lo := by
  have hzero (w : Word) : crcRounds 8 w = 0#16 ↔ w = 0#16 := by
    conv_lhs => rw [← crcRounds_zero_right 8]
    exact (crcRounds_injective 8).eq_iff
  rw [checksum, crcBytes_append, crcBytes_pair, hzero, hzero, eq_zero_iff_fields]
  simp [checksum]

/-- Settles O18: the two bytes appended are the checksum's. -/
theorem appendedChecksumLeavesZero : Obligations.AppendedChecksumLeavesZero :=
  fun m => (checksum_append_pair_eq_zero_iff m _ _).2 ⟨rfl, rfl⟩

/-- Settles O19: `f[4..63]` is the covered bytes and the two of the stored checksum. -/
theorem crcOkExactlyWhenResidueIsZero : Obligations.CrcOkExactlyWhenResidueIsZero := by
  intro f
  have htail : f.toList.drop 4 = coveredBytes f ++ [f[62], f[63]] := by
    rw [toList_eq_parts f]
    rfl
  rw [htail, checksum_append_pair_eq_zero_iff, crcOk_iff, toNat_eq_iff_bytes]

/-! ## The commands agree with the function -/

/-- A command other than `CRC.UPD` gives no byte. -/
theorem crcBytesGiven_cons_of_ne {i : Instr} (h : ∀ b, i ≠ .crcUpd b) (is : List Instr) :
    crcBytesGiven (i :: is) = crcBytesGiven is := by
  cases i with
  | crcUpd b => exact absurd rfl (h b)
  | _ => rfl

/-- Commands other than `CRC.INIT` and `RESET` put the bytes they give to `CRC.UPD` through the register, and do nothing
else to it (R47, R49). -/
theorem execAll_crc {is : List Instr} {s t : State} (his : ∀ i ∈ is, i ≠ .crcInit ∧ i ≠ .reset)
    (h : execAll is s = .next t) : t.crc = crcBytes s.crc (crcBytesGiven is) := by
  induction is generalizing s with
  | nil =>
    cases h
    rfl
  | cons i is ih =>
    obtain ⟨⟨hinit, hreset⟩, hrest⟩ := List.forall_mem_cons.1 his
    obtain ⟨u, hu⟩ := exec_total i s
    rw [execAll_cons_of_next hu] at h
    rw [ih hrest h]
    by_cases hupd : ∃ b, i = .crcUpd b
    · obtain ⟨b, rfl⟩ := hupd
      cases hu
      rfl
    · have hkeeps : u.crc = s.crc := by
        obtain ⟨_, _, hwrites, _⟩ := onlyTheListedCommandsWrite i s u hu
        by_contra hne
        rcases hwrites hne with hi | hi | hi
        exacts [hinit hi, hupd hi, hreset hi]
      rw [crcBytesGiven_cons_of_ne (not_exists.1 hupd), hkeeps]

/-- The same from a register that holds the value a checksum starts with, and what `CRC.RD` then answers (R43, R48). -/
theorem execAll_computes_checksum {is : List Instr} {s : State} (his : ∀ i ∈ is, i ≠ .crcInit ∧ i ≠ .reset)
    (hs : s.crc = 0xFFFF#16) :
    ∃ t, execAll is s = .next t ∧ t.crc = checksum (crcBytesGiven is) ∧
      exec .crcRd t = .next { t with responses := t.responses ++ [⟨false, checksum (crcBytesGiven is)⟩] } := by
  obtain ⟨t, ht⟩ := execAll_total is s
  have hcrc : t.crc = checksum (crcBytesGiven is) := by
    rw [execAll_crc his ht, hs]
    rfl
  refine ⟨t, ht, hcrc, ?_⟩
  rw [crcRdReadsTheRegister.2, hcrc]

/-- Settles O16: `CRC.INIT` leaves the value that reset leaves in `crc`. -/
theorem crcCommandsComputeTheChecksum : Obligations.CrcCommandsComputeTheChecksum := by
  refine fun is s his => ⟨?_, execAll_computes_checksum his⟩
  rw [execAll_cons_of_next (crcInitStartsAChecksum.2 s)]
  exact execAll_computes_checksum his rfl

end Sys2Proof.Machine
end

section
/-! PROOFS. The statements of 41_sync.md: the invariants of every step (O51, O50), the marker search (O23), the branches
of the contract (O24 to O30), the synchronizer's commands (O31, O32, O37 to O44), and where a stream may be cut (O36,
O58). -/

namespace Sys2Proof.Machine

/-! ## The invariants of R67 under each operation -/

/-- An operation that adds no frame, stays within the capacities and leaves `SR` keeps the invariants. -/
theorem blockInv_of_subset {s t : State} (h : BlockInv s) (hq : t.outq ⊆ s.outq) (hwf : Memory.wf t = true)
    (hsr : t.sr = s.sr) : BlockInv t where
  frames f hf := h.frames f (hq hf)
  storage := hwf
  reserved := hsr ▸ h.reserved
  badmark := hsr ▸ h.badmark

/-- Responding keeps them. -/
theorem blockInv_respond {s : State} (err : Bool) (data : Word) (h : BlockInv s) : BlockInv (respond err data s) :=
  blockInv_of_subset h (List.Subset.refl _) h.storage rfl

/-- Setting a flag other than that of the dead arm keeps them (R67 (d), (e)). -/
theorem blockInv_setFlag {s : State} {f : Flag} (hf : f ≠ .badmark) (h : BlockInv s) : BlockInv (setFlag f s) where
  frames := h.frames
  storage := h.storage
  reserved := by rw [setFlag_sr, srSet_reserved, h.reserved]
  badmark := by simp [h.badmark, hf]

/-- No fault sets the dead arm's flag (60_exceptions.md R72). -/
theorem blockInv_raise {s : State} (f : BlockFault) (h : BlockInv s) : BlockInv (raise f s) :=
  blockInv_respond _ _ (blockInv_setFlag (by cases f <;> exact nofun) h)

/-- Discarding bytes keeps them. -/
theorem blockInv_accDrop {s : State} (n : Nat) (h : BlockInv s) : BlockInv (accDrop n s) :=
  blockInv_of_subset h (List.Subset.refl _) (memory_wf_accDrop n h.storage) rfl

/-- Emitting a valid frame into a queue that has room keeps them (R67 (a), (c)). -/
theorem blockInv_outqAppend {s : State} {f : Frame} (hf : valid f = true) (hroom : outqFull s = false)
    (h : BlockInv s) : BlockInv (outqAppend f s) where
  frames g hg := by
    rcases List.mem_append.1 hg with hg | hg
    · exact h.frames g hg
    · rw [List.mem_singleton.1 hg, hf]
  storage := memory_wf_outqAppend f hroom h.storage
  reserved := h.reserved
  badmark := h.badmark

/-- Path A keeps them (R53). -/
theorem blockInv_noMarkerDiscard {s : State} (h : BlockInv s) : BlockInv (noMarkerDiscard s) := by
  rcases noMarkerDiscard_cases s with ⟨_, e⟩ | ⟨_, _, e⟩ | ⟨_, e⟩ <;> rw [e]
  · exact h
  · exact blockInv_setFlag nofun (blockInv_of_subset h (List.Subset.refl _) (memory_wf_accClear h.storage) rfl)
  · exact blockInv_setFlag nofun (blockInv_accDrop 10 h)

/-- Resync keeps them (R54). -/
theorem blockInv_resync {s : State} (p : Nat) (h : BlockInv s) : BlockInv (resync p s) := by
  rcases resync_cases p s with ⟨_, e⟩ | ⟨_, e⟩ <;> rw [e]
  · exact h
  · exact blockInv_setFlag nofun (blockInv_accDrop p h)

/-- An iteration of `scan` keeps them: it emits valid frames only, into a queue that has room, and never takes the dead
arm (R57, R58). -/
theorem blockInv_scanPass {s : State} (h : BlockInv s) : BlockInv (scanPass s).state := by
  rcases scanPass_cases s with
    ⟨_, e⟩ | ⟨p, _, ⟨_, e⟩ | ⟨cand, _, _, hmark, ⟨_, e⟩ | ⟨_, _, e⟩ | ⟨hcrc, hroom, e⟩⟩⟩ <;> rw [e]
  · exact blockInv_noMarkerDiscard h
  · exact blockInv_resync p h
  · exact blockInv_accDrop 1 (blockInv_setFlag nofun (blockInv_resync p h))
  · exact blockInv_resync p h
  · exact blockInv_accDrop 64 (blockInv_outqAppend ((valid_iff cand).2 ⟨hmark, hcrc⟩) hroom (blockInv_resync p h))

/-- `scan` keeps them. -/
theorem blockInv_scan {s : State} (h : BlockInv s) : BlockInv (scan s).2 :=
  scan_keeps_of_scanPass (fun _ => blockInv_scanPass) h

/-- Every command keeps them, in every state. -/
theorem blockInv_exec {i : Instr} {s t : State} (h : BlockInv s) (ht : exec i s = .next t) : BlockInv t := by
  cases i with
  | syncPush b =>
    rcases execSyncPush_cases b s with ⟨_, e⟩ | ⟨hroom, e⟩ <;> cases ht.symm.trans e
    · exact blockInv_raise _ h
    · exact blockInv_respond _ _
        (blockInv_of_subset h (List.Subset.refl _) (memory_wf_accAppend b hroom h.storage) rfl)
  | syncScan =>
    cases ht
    exact blockInv_respond _ _ (blockInv_scan h)
  | syncRdf arg =>
    rcases execSyncRdf_cases arg s with ⟨_, e⟩ | ⟨_, _, e⟩ | ⟨_, _, _, _, _, e⟩ <;> cases ht.symm.trans e
    · exact blockInv_raise _ h
    · exact blockInv_raise _ h
    · exact blockInv_respond _ _ h
  | syncPop =>
    rcases execSyncPop_cases s with ⟨_, e⟩ | ⟨_, e⟩ <;> cases ht.symm.trans e
    · exact blockInv_raise _ h
    · exact blockInv_respond _ _
        (blockInv_of_subset h (List.drop_subset 1 s.outq) (memory_wf_outqDrop h.storage) rfl)
  | syncClr =>
    cases ht
    exact blockInv_respond _ _ (blockInv_of_subset h (List.nil_subset _)
      (memory_wf_outqClear (memory_wf_accClear h.storage)) rfl)
  | clrf =>
    cases ht
    exact blockInv_respond _ _ ⟨h.frames, h.storage, by simp [h.reserved], by simp [h.badmark]⟩
  | reset =>
    cases ht
    exact blockInv_respond _ _ ⟨nofun, memory_wf_resetBlock s, srReserved_zero, srHas_zero _⟩
  | crcInit | crcUpd | crcRd | rdsr | syncRdal | syncRdfc =>
    cases ht
    exact blockInv_respond _ _ (blockInv_of_subset h (List.Subset.refl _) h.storage rfl)

/-- Settles O51: a step is idle, or its word raises a fault or executes a command, and each keeps the invariants. -/
theorem everyStepKeepsTheInvariants : Obligations.EveryStepKeepsTheInvariants := by
  intro s t h ht
  cases hc : s.commands with
  | nil =>
    cases (step_idle hc).symm.trans ht
    exact h
  | cons cmd rest =>
    have htaken : BlockInv { s with commands := rest } := ⟨h.frames, h.storage, h.reserved, h.badmark⟩
    rw [step_command hc] at ht
    rcases runWord_cases cmd { s with commands := rest } with ⟨i, _, e⟩ | ⟨_, _, e⟩ <;> rw [e] at ht
    · exact blockInv_exec htaken ht
    · cases ht
      exact blockInv_raise _ htaken

/-- Settles O50: nothing is queued, accumulated or recorded after reset. -/
theorem resetStateMeetsTheInvariants : Obligations.ResetStateMeetsTheInvariants where
  frames := nofun
  storage := memory_wf_reset
  reserved := rfl
  badmark := rfl

/-! ## The marker search -/

/-- The marker stands at `p` exactly when the rest from there begins with it (R51). -/
theorem markerAt_iff {s : List Byte} {p : Nat} : MarkerAt s p ↔ beginsWithMarker (s.drop p) = true := by
  rw [beginsWithMarker, List.isPrefixOf_iff_prefix, List.prefix_iff_getElem?]
  simp only [List.getElem?_drop, Constants.marker, MarkerAt]
  constructor
  · rintro ⟨_, h0, h1, h2, h3⟩ i hi
    simp only [List.length_cons, List.length_nil] at hi
    interval_cases i <;> assumption
  · intro h
    have h3 := h 3 (by decide)
    exact ⟨(List.getElem?_eq_some_iff.1 h3).1, h 0 (by decide), h 1 (by decide), h 2 (by decide), h3⟩

/-- The search passes over no marker: it finds one at or before any offset where one stands. -/
theorem findMarker_le {s : List Byte} {q : Nat} (h : MarkerAt s q) : ∃ p ≤ q, findMarker s = some p := by
  rw [markerAt_iff] at h
  induction s generalizing q with
  | nil => simp [beginsWithMarker, Constants.marker] at h
  | cons b bs ih =>
    rw [findMarker_cons]
    split
    · exact ⟨0, Nat.zero_le q, rfl⟩
    · rename_i hhead
      cases q with
      | zero => exact absurd h hhead
      | succ q =>
        obtain ⟨p, hp, e⟩ := ih h
        exact ⟨p + 1, by omega, by rw [e]; rfl⟩

/-- What the search finds is a marker. -/
theorem markerAt_of_findMarker {s : List Byte} {p : Nat} (h : findMarker s = some p) : MarkerAt s p :=
  markerAt_iff.2 (findMarker_drop h)

/-- None stands before it. -/
theorem not_markerAt_of_lt {s : List Byte} {p q : Nat} (h : findMarker s = some p) (hq : q < p) :
    ¬ MarkerAt s q := fun hm => by
  obtain ⟨p', hp', e⟩ := findMarker_le hm
  cases h.symm.trans e
  omega

/-- The search finds none exactly when none stands anywhere. -/
theorem findMarker_eq_none {s : List Byte} : findMarker s = none ↔ ∀ p, ¬ MarkerAt s p := by
  refine ⟨fun h p hm => ?_, fun h => ?_⟩
  · obtain ⟨_, _, e⟩ := findMarker_le hm
    cases h.symm.trans e
  · cases e : findMarker s with
    | none => rfl
    | some p => exact absurd (markerAt_of_findMarker e) (h p)

/-- Settles O23: what the search finds is a marker with none before it, and it finds one when there is one. -/
theorem markerSearchFindsTheLeastOffset : Obligations.MarkerSearchFindsTheLeastOffset := by
  refine fun s => ⟨fun p => ⟨fun h => ⟨markerAt_of_findMarker h, fun q => not_markerAt_of_lt h⟩, ?_⟩,
    findMarker_eq_none⟩
  rintro ⟨hm, hleast⟩
  obtain ⟨q, hq, e⟩ := findMarker_le hm
  obtain rfl | hlt := hq.eq_or_lt
  · exact e
  · exact absurd (markerAt_of_findMarker e) (hleast q hlt)

/-- At the head the search need not go on. -/
theorem findMarker_eq_zero {s : List Byte} (h : MarkerAt s 0) : findMarker s = some 0 := by
  obtain ⟨p, hp, e⟩ := findMarker_le h
  rwa [Nat.le_zero.1 hp] at e

/-- Discarding bytes moves a marker to the front by as many. -/
theorem markerAt_drop {s : List Byte} {p q : Nat} : MarkerAt (s.drop p) q ↔ MarkerAt s (p + q) := by
  rw [markerAt_iff, markerAt_iff, List.drop_drop]

/-! ## The contract, branch by branch -/

/-- An iteration that begins aligned goes on as it is: resync is a no-op (R54). -/
theorem scanPass_of_aligned {s : State} (h : MarkerAt s.acc 0) : scanPass s = alignedPass s := by
  rw [scanPass, findMarker_eq_zero h]
  rfl

/-- An iteration with the marker at an offset is one that begins with the bytes ahead of it gone (R54). -/
theorem scanPass_resync {s : State} {p : Nat} (h : findMarker s.acc = some p) :
    scanPass (resync p s) = scanPass s := by
  have haligned : MarkerAt (resync p s).acc 0 := by
    rw [resync_acc, markerAt_drop]
    exact markerAt_of_findMarker h
  rw [scanPass_of_aligned haligned, scanPass, h]

/-- An iteration on a frame at the head judges that frame (R56). -/
theorem scanPass_of_candidate {s : State} {f : Frame} {rest : List Byte} (h : s.acc = f.toList ++ rest)
    (hf : markerOk f = true) : scanPass s = judge f s := by
  have haligned : MarkerAt s.acc 0 := by
    obtain ⟨t, ht⟩ := (beginsWithMarker_iff _).1 hf
    rw [markerAt_iff, beginsWithMarker_iff, List.drop_zero, h, ht]
    exact ⟨t ++ rest, rfl⟩
  have hcand : candidate s.acc = some f := by
    rw [candidate_eq_some, h]
    simp
  rw [scanPass_of_aligned haligned, alignedPass, hcand]

/-- Settles O24: path A returns at once. -/
theorem missingMarkerDiscards : Obligations.MissingMarkerDiscards := by
  intro s h
  have hscan : scan s = (.noMarker, noMarkerDiscard s) := scan_of_stop (by rw [scanPass, h])
  rw [hscan]
  rcases noMarkerDiscard_cases s with ⟨hnil, e⟩ | ⟨hne, hle, e⟩ | ⟨hlt, e⟩ <;> rw [e]
  · exact ⟨by simp [hnil], by simp [hnil], fun _ => rfl⟩
  · exact ⟨fun _ => by omega, fun _ _ => rfl, fun hnil => absurd hnil hne⟩
  · exact ⟨fun _ => rfl, fun _ _ => by omega, fun hnil => by simp [hnil] at hlt⟩

/-- Settles O25: the iteration is the one that begins after resync. -/
theorem markerAtAnOffsetResyncs : Obligations.MarkerAtAnOffsetResyncs := by
  intro s p h
  refine ⟨markerAt_drop.2 (markerAt_of_findMarker h), fun hp => ?_⟩
  have hresync : resync p s = { s with acc := s.acc.drop p, sr := s.sr ||| 0x02#8 } := by
    rw [resync, if_neg (by omega)]
    rfl
  rw [← hresync, scan_unfold s, scan_unfold (resync p s), scanPass_resync h]

/-- Settles O26: path B returns at once. -/
theorem alignedButShortWaits : Obligations.AlignedButShortWaits := by
  intro s h hshort
  apply scan_of_stop
  rw [scanPass_of_aligned h, alignedPass, candidate_eq_none.2 hshort]

/-- Settles O27: path C goes round again. -/
theorem badChecksumDropsOneByte : Obligations.BadChecksumDropsOneByte := by
  intro s f rest h hmark hcrc
  apply scan_of_again
  rw [scanPass_of_candidate h hmark, judge, hmark, hcrc]
  rfl

/-- Settles O28: path E returns with the state as it is, and path D goes round again. -/
theorem validFrameIsEmittedOrHeld : Obligations.ValidFrameIsEmittedOrHeld := by
  intro s f rest h hvalid
  obtain ⟨hmark, hcrc⟩ := (valid_iff f).1 hvalid
  have hpass : scanPass s =
      if outqFull s then .stop .outFull s else .again { s with acc := rest, outq := s.outq ++ [f] } := by
    have hrest : s.acc.drop 64 = rest := by simp [h]
    rw [scanPass_of_candidate h hmark, judge, hmark, hcrc, ← hrest]
    rfl
  rw [← outqFull_iff, Ne, ← outqFull_iff]
  refine ⟨fun hfull => scan_of_stop ?_, fun hroom => scan_of_again ?_⟩
  · rw [hpass, if_pos hfull]
  · rw [hpass, if_neg hroom]

/-! ## What `scan` leaves -/

/-- `scan` ends with an iteration that returns its result (R59). -/
theorem scan_ends (s : State) : ∃ u, scanPass u = .stop (scan s).1 (scan s).2 := by
  refine scan_induction (motive := fun _ r => ∃ u, scanPass u = .stop r.1 r.2) (fun u _ _ e => ⟨u, e⟩)
    (fun u t e ih => ?_) s
  rwa [scan_of_again e]

/-- What path A leaves has no marker, and is empty or the last 55 bytes or more (R53). -/
theorem noMarkerDiscard_leaves {s : State} (h : findMarker s.acc = none) :
    findMarker (noMarkerDiscard s).acc = none ∧
      ((noMarkerDiscard s).acc = [] ∨ 55 ≤ (noMarkerDiscard s).acc.length) := by
  rcases noMarkerDiscard_cases s with ⟨hnil, e⟩ | ⟨_, _, e⟩ | ⟨hlt, e⟩ <;> rw [e]
  · exact ⟨h, .inl hnil⟩
  · exact ⟨rfl, .inl rfl⟩
  · rw [findMarker_eq_none] at h ⊢
    refine ⟨fun p hp => h (10 + p) (markerAt_drop.1 hp), .inr ?_⟩
    simp only [setFlag_acc, accDrop_acc, List.length_drop]
    omega

/-- Settles O29: each stop code comes from one path, whose state `scanPass_cases` gives. -/
theorem stopCodesDescribeTheState : Obligations.StopCodesDescribeTheState := by
  intro s
  obtain ⟨u, hu⟩ := scan_ends s
  generalize scan s = r at hu
  obtain ⟨code, t⟩ := r
  rcases scanPass_cases u with
    ⟨hnone, e⟩ | ⟨p, hp, ⟨hlt, e⟩ | ⟨cand, hl, hcand, hmark, ⟨_, e⟩ | ⟨hcrc, hfull, e⟩ | ⟨_, _, e⟩⟩⟩ <;> rw [hu] at e
  · obtain ⟨rfl, rfl⟩ := Pass.stop.inj e
    exact ⟨fun _ => noMarkerDiscard_leaves hnone, nofun, nofun⟩
  · obtain ⟨rfl, rfl⟩ := Pass.stop.inj e
    have hm : MarkerAt (u.acc.drop p) 0 := markerAt_drop.2 (markerAt_of_findMarker hp)
    have hlen := hm.1
    simp only [resync_acc]
    rw [List.length_drop] at hlen ⊢
    exact ⟨nofun, fun _ => ⟨hm, by omega, by omega⟩, nofun⟩
  · cases e
  · obtain ⟨rfl, rfl⟩ := Pass.stop.inj e
    refine ⟨nofun, nofun, fun _ => ⟨by simpa using hl, ⟨cand, by simpa using hcand, ?_⟩, (outqFull_iff _).1 hfull⟩⟩
    exact (valid_iff cand).2 ⟨hmark, hcrc⟩
  · cases e

/-- An iteration that returns other than by path A leaves a state in which the next one returns the same. -/
theorem scanPass_of_held {u t : State} {code : StopCode} (h : scanPass u = .stop code t) (hcode : code ≠ .noMarker) :
    scanPass t = .stop code t := by
  rcases scanPass_cases u with
    ⟨_, e⟩ | ⟨p, hp, ⟨_, e⟩ | ⟨_, _, _, _, ⟨_, e⟩ | ⟨_, _, e⟩ | ⟨_, _, e⟩⟩⟩ <;> cases h.symm.trans e
  · exact absurd rfl hcode
  · rw [scanPass_resync hp, h]
  · rw [scanPass_resync hp, h]

/-- Settles O32: the last iteration of the first scan is the only one of the second. -/
theorem heldScanIsRepeatable : Obligations.HeldScanIsRepeatable := by
  intro s hcode
  obtain ⟨u, hu⟩ := scan_ends s
  exact scan_of_stop (scanPass_of_held hu hcode)

/-! ## The frames lie in the accumulator in order -/

/-- More discarded bytes in front. -/
theorem cutsInto_append_left {a : List Byte} {fs : List Frame} {left : List Byte} (gap : List Byte)
    (h : CutsInto a fs left) : CutsInto (gap ++ a) fs left := by
  cases h with
  | rest gap' left => exact List.append_assoc gap gap' left ▸ .rest (gap ++ gap') left
  | frame gap' f h => exact List.append_assoc gap gap' _ ▸ .frame (gap ++ gap') f h

/-- The bytes dropped from the head are discarded ones. -/
theorem cutsInto_of_drop {a : List Byte} {fs : List Frame} {left : List Byte} (n : Nat)
    (h : CutsInto (a.drop n) fs left) : CutsInto a fs left := by
  have := cutsInto_append_left (a.take n) h
  rwa [List.take_append_drop] at this

/-- Nothing but discarded bytes. -/
theorem cutsInto_drop (a : List Byte) (n : Nat) : CutsInto a [] (a.drop n) :=
  cutsInto_of_drop n (.rest [] _)

/-- Each frame takes its own 64 bytes. -/
theorem length_le_of_cutsInto {a : List Byte} {fs : List Frame} {left : List Byte} (h : CutsInto a fs left) :
    64 * fs.length ≤ a.length := by
  induction h with
  | rest gap left => simp
  | frame gap f _ ih =>
    simp only [List.length_append, List.length_cons, length_frame]
    omega

/-- From `s` to `t` the queue has grown by valid frames that were cut, in order, from the accumulator of `s`. -/
def EmitsInOrder (s t : State) : Prop :=
  ∃ fs : List Frame, t.outq = s.outq ++ fs ∧ CutsInto s.acc fs t.acc ∧ ∀ f ∈ fs, valid f = true

/-- Bytes discarded before change nothing. -/
theorem emitsInOrder_of_drop {s u t : State} (n : Nat) (hq : u.outq = s.outq) (ha : u.acc = s.acc.drop n)
    (h : EmitsInOrder u t) : EmitsInOrder s t := by
  obtain ⟨fs, hfs, hcuts, hvalid⟩ := h
  exact ⟨fs, hq ▸ hfs, cutsInto_of_drop n (ha ▸ hcuts), hvalid⟩

/-- Nothing emitted and nothing discarded. -/
theorem emitsInOrder_refl (s : State) : EmitsInOrder s s := ⟨[], by simp, .rest [] _, nofun⟩

/-- `scan` emits so, by induction on its iterations: paths A, B, C and E emit nothing, and path D takes the 64 bytes of
its frame (R58). -/
theorem scan_emitsInOrder (s : State) : EmitsInOrder s (scan s).2 := by
  refine scan_induction (motive := fun s r => EmitsInOrder s r.2) (fun s code t h => ?_) (fun s t h ih => ?_) s
  · rcases scanPass_cases s with
      ⟨_, e⟩ | ⟨p, _, ⟨_, e⟩ | ⟨_, _, _, _, ⟨_, e⟩ | ⟨_, _, e⟩ | ⟨_, _, e⟩⟩⟩ <;> cases h.symm.trans e
    · rcases noMarkerDiscard_cases s with ⟨_, d⟩ | ⟨_, _, d⟩ | ⟨_, d⟩ <;> rw [d]
      · exact emitsInOrder_refl s
      · exact emitsInOrder_of_drop (u := setFlag .nomark (accClear s)) s.acc.length rfl (by simp) (emitsInOrder_refl _)
      · exact emitsInOrder_of_drop (u := setFlag .nomark (accDrop 10 s)) 10 rfl rfl (emitsInOrder_refl _)
    · exact emitsInOrder_of_drop p (resync_outq p s) (resync_acc p s) (emitsInOrder_refl _)
    · exact emitsInOrder_of_drop p (resync_outq p s) (resync_acc p s) (emitsInOrder_refl _)
  · rw [scan_of_again h]
    rcases scanPass_cases s with
      ⟨_, e⟩ | ⟨p, _, ⟨_, e⟩ | ⟨cand, _, hcand, hmark, ⟨_, e⟩ | ⟨_, _, e⟩ | ⟨hcrc, _, e⟩⟩⟩ <;> cases h.symm.trans e
    · refine emitsInOrder_of_drop (p + 1) (by simp [dropBad, resync_outq]) ?_ ih
      simp [dropBad, List.drop_drop]
    · obtain ⟨fs, hfs, hcuts, hvalid⟩ := ih
      refine ⟨cand :: fs, by simpa [resync_outq] using hfs, cutsInto_of_drop p ?_, ?_⟩
      · have hsplit : s.acc.drop p = [] ++ (cand.toList ++ (s.acc.drop p).drop 64) := by
          rw [hcand, List.nil_append, List.take_append_drop]
        rw [hsplit]
        exact .frame [] cand (by simpa using hcuts)
      · exact List.forall_mem_cons.2 ⟨(valid_iff cand).2 ⟨hmark, hcrc⟩, hvalid⟩

/-- Settles O30: `scan` emits in order, and the frames' own bytes bound their number. -/
theorem scanCutsTheAccumulatorInOrder : Obligations.ScanCutsTheAccumulatorInOrder := by
  intro s
  obtain ⟨fs, hfs, hcuts, hvalid⟩ := scan_emitsInOrder s
  have := length_le_of_cutsInto hcuts
  exact ⟨fs, hfs, hcuts, hvalid, by omega⟩


/-! ## The synchronizer's commands -/

/-- `scan` writes `SR` by setting `NOMARK`, `RESYNC` and `BADCRC` only: what no such write ends, `scan` keeps (R61). -/
theorem scan_keeps_sr {P : Byte → Prop} {s : State}
    (hset : ∀ sr f, f = .nomark ∨ f = .resync ∨ f = .badcrc → P sr → P (srSet sr f)) (h : P s.sr) :
    P (scan s).2.sr := by
  have hresync (p : Nat) (u : State) (hu : P u.sr) : P (resync p u).sr := by
    rcases resync_cases p u with ⟨_, e⟩ | ⟨_, e⟩ <;> rw [e]
    · exact hu
    · exact hset _ _ (.inr (.inl rfl)) hu
  refine scan_keeps_of_scanPass (P := fun u => P u.sr) (fun u hu => ?_) h
  rcases scanPass_cases u with ⟨_, e⟩ | ⟨p, _, ⟨_, e⟩ | ⟨_, _, _, _, ⟨_, e⟩ | ⟨_, _, e⟩ | ⟨_, _, e⟩⟩⟩ <;> rw [e]
  · rcases noMarkerDiscard_cases u with ⟨_, d⟩ | ⟨_, _, d⟩ | ⟨_, d⟩ <;> rw [d]
    · exact hu
    · exact hset _ _ (.inl rfl) hu
    · exact hset _ _ (.inl rfl) hu
  · exact hresync p u hu
  · exact hset _ _ (.inr (.inr rfl)) (hresync p u hu)
  · exact hresync p u hu
  · exact hresync p u hu

/-- Settles O31: `scan_frame` for the state, and `scan_keeps_sr` for the flags. -/
theorem syncScanRespondsTheStopCode : Obligations.SyncScanRespondsTheStopCode := by
  refine ⟨isTheOnlyWordOf_pattern (i := .syncScan) (by decide), fun s => ⟨?_, fun f => scan_keeps_flag, ?_, ?_⟩⟩
  · calc exec .syncScan s
      _ = .next (respond false (scan s).1.number (scan s).2) := rfl
      _ = _ := by
        rw [scan_frame]
        rfl
  · intro f hf
    refine scan_keeps_sr (P := fun sr => srHas sr f = srHas s.sr f) (fun sr g hg h => ?_) rfl
    have hne : g ≠ f := by
      rintro rfl
      rcases hg with rfl | rfl | rfl <;> simp [Flag.isEvent] at hf
    simpa [hne] using h
  · exact scan_keeps_sr (P := fun sr => srReserved sr = srReserved s.sr)
      (fun sr g _ h => (srSet_reserved sr g).trans h) rfl

/-- The bytes at the end of the accumulator, and a response `(0, 0)` for each: what as many pushes do. -/
def afterPushes (bs : List Byte) (s : State) : State :=
  { s with acc := s.acc ++ bs, responses := s.responses ++ List.replicate bs.length ⟨false, 0x0000⟩ }

/-- The accumulator is not full before any of the next `n` bytes (R60). -/
def RoomFor (n : Nat) (s : State) : Prop :=
  ∀ m, s.acc.length ≤ m → m < s.acc.length + n → s.caps.accCap ≠ .finite m

/-- The accumulator has room for a byte and those after it exactly when it is not full and, after the byte, has room for
the rest. -/
theorem roomFor_succ {n : Nat} {s : State} (b : Byte) (h : RoomFor (n + 1) s) :
    accFull s = false ∧ RoomFor n (respond false 0 (accAppend b s)) := by
  constructor
  · rw [← Bool.not_eq_true, accFull_iff]
    exact h _ le_rfl (by omega)
  · intro m hle hlt
    simp only [respond_acc, accAppend_acc, List.length_append, List.length_singleton] at hle hlt
    exact h m (by omega) (by omega)

/-- An accumulator that holds as many bytes more has room for them. -/
theorem roomFor_of_capAllows {n : Nat} {s : State} (h : capAllows s.caps.accCap (s.acc.length + n) = true) :
    RoomFor n s :=
  fun _ _ hlt => ne_finite_of_capAllows h hlt

/-- The first push and those after it. -/
theorem afterPushes_cons (b : Byte) (bs : List Byte) (s : State) :
    afterPushes bs (respond false 0 (accAppend b s)) = afterPushes (b :: bs) s := by
  simp [afterPushes, respond, accAppend, List.replicate_succ]

/-- A push with room. -/
theorem exec_syncPush_of_room {s : State} (b : Byte) (h : accFull s = false) :
    exec (.syncPush b) s = .next (respond false 0 (accAppend b s)) := by
  rcases execSyncPush_cases b s with ⟨hfull, _⟩ | ⟨_, e⟩
  · cases h.symm.trans hfull
  · exact e

/-- Pushes with room for their bytes append them (R60). -/
theorem execAll_pushes {bs : List Byte} {s : State} (h : RoomFor bs.length s) :
    execAll (bs.map .syncPush) s = .next (afterPushes bs s) := by
  induction bs generalizing s with
  | nil => simp [afterPushes]
  | cons b bs ih =>
    obtain ⟨hb, hbs⟩ := roomFor_succ b h
    rw [List.map_cons, execAll_cons_of_next (exec_syncPush_of_room b hb), ih hbs, afterPushes_cons]

/-- A delivery with room for its bytes is one scan of the accumulator with them at its end (30_encoding.md R39). -/
theorem execAll_syncFeed {bs : List Byte} {s : State} (h : RoomFor bs.length s) :
    execAll (syncFeed bs) s = exec .syncScan (afterPushes bs s) := by
  rw [syncFeed, execAll_append_of_next (execAll_pushes h)]
  rfl

/-- Settles O37: the scan takes path D once and finds the accumulator empty. -/
theorem fedFrameIsEmitted : Obligations.FedFrameIsEmitted := by
  intro s f hnil hvalid hroom
  have hfits : RoomFor f.toList.length s :=
    roomFor_of_capAllows (capAllows_above _ (by rw [hnil, length_frame]; decide))
  have hacc : (afterPushes f.toList s).acc = f.toList ++ [] := by simp [afterPushes, hnil]
  have hscan := ((validFrameIsEmittedOrHeld _ f [] hacc hvalid).2 hroom).trans (scan_of_empty rfl)
  have hresponses (r : Response) : List.replicate 65 r = List.replicate 64 r ++ [r] := List.replicate_succ'
  rw [execAll_syncFeed hfits, exec, execSyncScan, hscan]
  simp only [respond, afterPushes, length_frame, hnil, hresponses, List.append_assoc]
  rfl

/-- Settles O38: 0x1000 is the match of the row and the byte its operand. -/
theorem syncPushAppendsOrOverflows : Obligations.SyncPushAppendsOrOverflows := by
  refine fun b => ⟨decode_eq_ok_iff.2 ⟨rfl, encode_eq_iff.2 (fields_pattern_add (.syncPush b) b)⟩, fun s => ?_⟩
  rw [Ne, ← accFull_iff]
  rcases execSyncPush_cases b s with ⟨hfull, e⟩ | ⟨hroom, e⟩ <;> rw [e]
  · exact ⟨fun hroom => absurd hfull hroom, fun _ => rfl⟩
  · exact ⟨fun _ => rfl, fun hfull => nomatch hroom.symm.trans hfull⟩

/-- `0x1200 + arg` is reserved for `arg` 64 to 255 (30_encoding.md R36). -/
theorem isReserved_syncRdf {arg : Byte} (h : 64 ≤ arg.toNat) : IsReserved (0x1200#16 + arg.setWidth 16) := by
  obtain ⟨hop, harg⟩ := fields_pattern_add (.syncRdf arg) arg
  change opField (0x1200#16 + arg.setWidth 16) = _ at hop
  change argField (0x1200#16 + arg.setWidth 16) = _ at harg
  rw [IsReserved, ← toNat_opField, ← toNat_argField, hop, harg]
  exact .inr (.inr ⟨rfl, h⟩)

/-- A reserved word does not decode (30_encoding.md R37). -/
theorem decode_error_of_isReserved {cmd : Word} (h : IsReserved cmd) : ∃ e, decode cmd = .error e := by
  cases hd : decode cmd with
  | ok i => exact absurd h (not_isReserved_of_decode hd)
  | error e => exact ⟨e, rfl⟩

/-- Settles O39: the words by the encoder's inverse and R36, the effect by the three cases of the read. -/
theorem syncRdfReadsTheHeadFrame : Obligations.SyncRdfReadsTheHeadFrame := by
  refine ⟨fun i => ?_, fun arg h => decode_error_of_isReserved (isReserved_syncRdf h), fun s arg => ?_⟩
  · have harg : (BitVec.ofNat 8 i.val).toNat = i.val := toNat_byte (by omega)
    refine decode_eq_ok_iff.2 ⟨(wellFormed_rdf_iff _).2 (by omega), ?_⟩
    apply BitVec.eq_of_toNat_eq
    rw [toNat_encode, BitVec.toNat_ofNat]
    change 0x12 * 256 + (BitVec.ofNat 8 i.val).toNat = _
    omega
  · rcases execSyncRdf_cases arg s with ⟨hge, e⟩ | ⟨hlt, hnil, e⟩ | ⟨g, gs, j, hj, hq, e⟩ <;> rw [e]
    · exact ⟨fun i _ _ hi => by omega, fun hlt => by omega, fun _ => rfl⟩
    · exact ⟨fun _ _ _ _ hq => (nomatch hnil.symm.trans hq), fun _ _ => rfl, fun hge => by omega⟩
    · refine ⟨fun i f fs hi hf => ?_, fun _ hnil => (nomatch hq.symm.trans hnil), fun hge => by omega⟩
      cases hq.symm.trans hf
      cases Fin.ext (hj.symm.trans hi)
      rw [BitVec.ofNat_toNat]
      rfl

/-- Settles O40: the head frame is valid (R67 (a)), so its bytes are the marker's and the checksum's. -/
theorem headFrameReadsMarkerAndChecksum : Obligations.HeadFrameReadsMarkerAndChecksum := by
  intro s f fs hinv hq
  have hvalid : valid f = true := hinv.frames f (by simp [hq])
  obtain ⟨hmark, hcrc⟩ := (valid_iff f).1 hvalid
  obtain ⟨h0, h1, h2, h3⟩ := (markerOk_iff f).1 hmark
  have hread {k : Nat} (hk : k < 64) := exec_syncRdf_of_frame hq hk
  have hbyte : ∀ i : Fin 4, zext16 f[i.val] = BitVec.ofNat 16 (i.val + 1) := by
    rintro ⟨i, hi⟩
    interval_cases i
    · exact congrArg zext16 h0
    · exact congrArg zext16 h1
    · exact congrArg zext16 h2
    · exact congrArg zext16 h3
  refine ⟨fun i => ?_, zext16 f[62], zext16 f[63], ?_, ?_, hread (by decide), hread (by decide), ?_⟩
  · exact hbyte i ▸ hread (k := i.val) (by omega)
  · rw [toNat_zext16]
    exact f[62].isLt
  · rw [toNat_zext16]
    exact f[63].isLt
  · rw [← coveredBytes_eq, toNat_zext16, toNat_zext16]
    exact (crcOk_iff f).1 hcrc

/-- Settles O41: the two cases of the pop. -/
theorem syncPopRemovesTheHeadFrame : Obligations.SyncPopRemovesTheHeadFrame := by
  refine ⟨isTheOnlyWordOf_pattern (i := .syncPop) (by decide), fun s => ?_⟩
  rcases execSyncPop_cases s with ⟨hnil, e⟩ | ⟨hne, e⟩ <;> rw [e]
  · exact ⟨fun _ _ hq => (nomatch hnil.symm.trans hq), fun _ => rfl⟩
  · refine ⟨fun f fs hq => ?_, fun hnil => absurd hnil hne⟩
    simp [respond, outqDrop, hq]

/-- A length in 16 bits (R64, R65). -/
theorem toNat_saturate16 (n : Nat) : (saturate16 n).toNat = min n 65535 :=
  (BitVec.toNat_ofNat _ 16).trans (Nat.mod_eq_of_lt (by omega))

/-- Settles O42: the number of frames in 16 bits, with no write. -/
theorem syncRdfcCountsTheFrames : Obligations.SyncRdfcCountsTheFrames :=
  ⟨isTheOnlyWordOf_pattern (i := .syncRdfc) (by decide), fun s => ⟨_, toNat_saturate16 s.outq.length, rfl⟩⟩

/-- Settles O43: the number of bytes in 16 bits, with no write. -/
theorem syncRdalCountsTheBytes : Obligations.SyncRdalCountsTheBytes :=
  ⟨isTheOnlyWordOf_pattern (i := .syncRdal) (by decide), fun s => ⟨_, toNat_saturate16 s.acc.length, rfl⟩⟩

/-- Settles O44: R66's two writes. -/
theorem syncClrEmptiesBothBuffers : Obligations.SyncClrEmptiesBothBuffers :=
  ⟨isTheOnlyWordOf_pattern (i := .syncClr) (by decide), fun _ => rfl⟩


/-! ## The frames of a stream -/

/-- The valid frames of a byte sequence, found from the left, each taking its 64 bytes: what `scan` emits of it when the
queue has room (`scan_outq_of_ne_outFull`). -/
def framesIn : List Byte → List Frame
  | [] => []
  | b :: bs =>
    match candidate (b :: bs) with
    | none => []
    | some f => if valid f then f :: framesIn (bs.drop 63) else framesIn bs
termination_by a => a.length
decreasing_by
  · rw [List.length_drop, List.length_cons]
    omega
  · exact Nat.lt_succ_self _

/-- Fewer than 64 bytes hold no frame. -/
theorem framesIn_of_short {a : List Byte} (h : a.length < 64) : framesIn a = [] := by
  cases a with
  | nil => rw [framesIn]
  | cons b bs => rw [framesIn, candidate_eq_none.2 h]

/-- A valid frame at the head is the first frame, and the search goes on behind it. -/
theorem framesIn_frame_append {f : Frame} (rest : List Byte) (h : valid f = true) :
    framesIn (f.toList ++ rest) = f :: framesIn rest := by
  have hcand : candidate (f.toList ++ rest) = some f := by
    rw [candidate_eq_some]
    simp
  have hrest : (f.toList ++ rest).drop 64 = rest := by simp
  cases ha : f.toList ++ rest with
  | nil => simp [ha, candidate_eq_some] at hcand
  | cons b bs =>
    rw [ha] at hcand hrest
    rw [framesIn, hcand]
    simp only [h, if_true]
    exact congrArg (fun l => f :: framesIn l) hrest

/-- A first byte at which no valid frame begins belongs to none. -/
theorem framesIn_drop_one {a : List Byte} (h : ∀ f, candidate a = some f → valid f = false) :
    framesIn a = framesIn (a.drop 1) := by
  cases a with
  | nil => rfl
  | cons b bs =>
    cases hc : candidate (b :: bs) with
    | none =>
      have hshort := candidate_eq_none.1 hc
      rw [framesIn_of_short hshort, framesIn_of_short (lt_of_le_of_lt (by simp) hshort)]
    | some f =>
      rw [framesIn, hc]
      simp only [h f hc, Bool.false_eq_true, if_false]
      rfl

/-- A valid frame begins with the marker. -/
theorem markerAt_of_candidate {a : List Byte} {f : Frame} (hc : candidate a = some f) (hf : valid f = true) :
    MarkerAt a 0 := by
  obtain ⟨hmark, _⟩ := (valid_iff f).1 hf
  obtain ⟨_, htake⟩ := candidate_eq_some.1 hc
  obtain ⟨t, ht⟩ := (beginsWithMarker_iff _).1 hmark
  rw [markerAt_iff, beginsWithMarker_iff, List.drop_zero, ← List.take_append_drop 64 a, ← htake, ht]
  exact ⟨t ++ a.drop 64, rfl⟩

/-- The first bytes, as far as no marker stands at any of them, belong to no frame. -/
theorem framesIn_drop {a : List Byte} {k : Nat} (h : ∀ q < k, ¬ MarkerAt a q) : framesIn a = framesIn (a.drop k) := by
  induction k with
  | zero => rfl
  | succ k ih =>
    rw [ih fun q hq => h q (by omega), ← List.drop_drop]
    refine framesIn_drop_one fun f hc => ?_
    by_contra hf
    have hm := markerAt_of_candidate hc (Bool.not_eq_false _ ▸ hf)
    exact h k (by omega) (markerAt_drop.1 hm)

/-- No marker, no frame. -/
theorem framesIn_of_no_marker {a : List Byte} (h : findMarker a = none) : framesIn a = [] := by
  rw [framesIn_drop (k := a.length) fun q _ => findMarker_eq_none.1 h q, List.drop_length, framesIn]

/-! ## A marker in a stream that has partly arrived -/

/-- A marker whose four bytes have arrived stands in the bytes that have. -/
theorem markerAt_of_append {a b : List Byte} {q : Nat} (h : MarkerAt (a ++ b) q) (hq : q + 3 < a.length) :
    MarkerAt a q := by
  obtain ⟨_, h0, h1, h2, h3⟩ := h
  rw [List.getElem?_append_left (by omega)] at h0 h1 h2 h3
  exact ⟨hq, h0, h1, h2, h3⟩

/-- A marker of which one to three bytes have arrived: the bytes that have end in its beginning (R68). -/
theorem endsInMarkerBeginning_of_append {a b : List Byte} {q : Nat} (h : MarkerAt (a ++ b) q) (hlt : q < a.length)
    (hle : a.length ≤ q + 3) : endsInMarkerBeginning a = true := by
  rw [markerAt_iff, beginsWithMarker, List.isPrefixOf_iff_prefix, List.drop_append_of_le_length hlt.le] at h
  have hlen : (a.drop q).length = a.length - q := List.length_drop
  have hprefix : a.drop q <+: Constants.marker :=
    List.prefix_of_prefix_length_le (List.prefix_append _ b) h (by rw [hlen]; simp [Constants.marker]; omega)
  have htail : a.drop q = Constants.marker.take (a.length - q) := hlen ▸ List.prefix_iff_eq_take.1 hprefix
  have hbeginning : ∀ d, 1 ≤ d → d ≤ 3 → Constants.marker.take d ∈ [[0x01], [0x01, 0x02], [0x01, 0x02, 0x03]] := by
    intro d _ _
    interval_cases d <;> decide
  have hmem := hbeginning (a.length - q) (by omega) (by omega)
  rw [← htail] at hmem
  exact List.any_eq_true.2 ⟨_, hmem, List.isSuffixOf_iff_suffix.2 (List.drop_suffix q a)⟩

/-- Bytes without a marker and without a marker's beginning at their end have no marker in them whatever comes after. -/
theorem not_markerAt_append {a : List Byte} (b : List Byte) (hnone : findMarker a = none)
    (hend : endsInMarkerBeginning a = false) {q : Nat} (hq : q < a.length) : ¬ MarkerAt (a ++ b) q := by
  intro h
  by_cases hin : q + 3 < a.length
  · exact findMarker_eq_none.1 hnone q (markerAt_of_append h hin)
  · cases hend.symm.trans (endsInMarkerBeginning_of_append h hq (by omega))

/-! ## `scan` and the frames of the stream -/

/-- The frames waiting, and after them those of the bytes accumulated with `b` still to come. -/
def framesWith (b : List Byte) (s : State) : List Frame := s.outq ++ framesIn (s.acc ++ b)

/-- Discarding bytes among which no marker stands leaves the frames as they are. -/
theorem framesWith_of_drop {s t : State} {b : List Byte} {k : Nat} (hq : t.outq = s.outq)
    (ha : t.acc ++ b = (s.acc ++ b).drop k) (h : ∀ q < k, ¬ MarkerAt (s.acc ++ b) q) :
    framesWith b t = framesWith b s := by
  rw [framesWith, framesWith, hq, ha, ← framesIn_drop h]

/-- Path A leaves them, unless it discards the beginning of a marker that `b` completes (R53, R68). -/
theorem noMarkerDiscard_framesWith {s : State} {b : List Byte} (hnone : findMarker s.acc = none)
    (hsafe : b = [] ∨ (s.acc.length ≤ 64 → endsInMarkerBeginning s.acc = false)) :
    framesWith b (noMarkerDiscard s) = framesWith b s := by
  rcases noMarkerDiscard_cases s with ⟨_, e⟩ | ⟨_, hle, e⟩ | ⟨hlt, e⟩ <;> rw [e]
  · refine framesWith_of_drop (k := s.acc.length) rfl (by simp) fun q hq => ?_
    rcases hsafe with rfl | hend
    · rw [List.append_nil]
      exact findMarker_eq_none.1 hnone q
    · exact not_markerAt_append b hnone (hend hle) hq
  · refine framesWith_of_drop (k := 10) rfl (List.drop_append_of_le_length (by omega)).symm fun q hq hm => ?_
    exact findMarker_eq_none.1 hnone q (markerAt_of_append hm (by omega))

/-- Resync leaves them: the marker found is the first of the whole stream (R54, R68). -/
theorem resync_framesWith {s : State} {p : Nat} (b : List Byte) (hp : findMarker s.acc = some p) :
    framesWith b (resync p s) = framesWith b s := by
  have hlen := (markerAt_of_findMarker hp).1
  refine framesWith_of_drop (k := p) (resync_outq p s) ?_ fun q hq hm => ?_
  · rw [resync_acc, List.drop_append_of_le_length (by omega)]
  · exact not_markerAt_of_lt hp hq (markerAt_of_append hm (by omega))

/-- An iteration of `scan` leaves them: a candidate is judged on its own 64 bytes (R57, R58, R68). -/
theorem scanPass_framesWith {s : State} {b : List Byte}
    (hsafe : b = [] ∨ (findMarker s.acc = none → s.acc.length ≤ 64 → endsInMarkerBeginning s.acc = false)) :
    framesWith b (scanPass s).state = framesWith b s := by
  rcases scanPass_cases s with
    ⟨hnone, e⟩ | ⟨p, hp, ⟨_, e⟩ | ⟨cand, hl, hcand, hmark, ⟨hcrc, e⟩ | ⟨_, _, e⟩ | ⟨hcrc, _, e⟩⟩⟩ <;> rw [e]
  · exact noMarkerDiscard_framesWith hnone (hsafe.imp_right fun h => h hnone)
  · exact resync_framesWith b hp
  · rw [← resync_framesWith b hp]
    have hc : candidate ((resync p s).acc ++ b) = some cand := by
      rw [candidate_eq_some, resync_acc, hcand, List.take_append_of_le_length (by simpa using hl)]
      refine ⟨?_, rfl⟩
      simp only [List.length_append, List.length_drop]
      omega
    have hbad : valid cand = false := by simp [valid, hcrc]
    have hdrop : framesIn ((resync p s).acc ++ b) = framesIn ((resync p s).acc.drop 1 ++ b) := by
      have hone : 1 ≤ (resync p s).acc.length := by
        rw [resync_acc, List.length_drop]
        omega
      rw [← List.drop_append_of_le_length hone]
      refine framesIn_drop_one fun f hf => ?_
      cases hc.symm.trans hf
      exact hbad
    exact congrArg ((resync p s).outq ++ ·) hdrop.symm
  · exact resync_framesWith b hp
  · have hvalid : valid cand = true := (valid_iff cand).2 ⟨hmark, hcrc⟩
    have hsplit : (resync p s).acc = cand.toList ++ (resync p s).acc.drop 64 := by
      rw [resync_acc, hcand, List.take_append_drop]
    rw [← resync_framesWith b hp]
    simp only [framesWith, Pass.state, accDrop_outq, outqAppend_outq, accDrop_acc, outqAppend_acc]
    conv_rhs => rw [hsplit, List.append_assoc, framesIn_frame_append _ hvalid]
    simp

/-- `scan` leaves them, unless it loses the beginning of a marker that `b` completes. -/
theorem scan_framesWith {s : State} {b : List Byte} (hsafe : b = [] ∨ LosesNoMarkerBeginning s) :
    framesWith b (scan s).2 = framesWith b s := by
  revert hsafe
  refine scan_induction
    (motive := fun s r => b = [] ∨ LosesNoMarkerBeginning s → framesWith b r.2 = framesWith b s)
    (fun u code t h hsafe => ?_) (fun u t h ih hsafe => ?_) s
  · have hpass := scanPass_framesWith (hsafe.imp_right (losesNoMarkerBeginning_of_stop h).1)
    rwa [h] at hpass
  · have hpass : framesWith b (scanPass u).state = framesWith b u :=
      scanPass_framesWith (hsafe.imp_right fun hu => hu u .first)
    rw [h] at hpass
    rw [scan_of_again h, ih (hsafe.imp_right (losesNoMarkerBeginning_of_again h).1)]
    exact hpass

/-- What `scan` leaves holds a frame exactly when `scan` stops for a full queue (R58, R59). -/
theorem framesIn_scan_eq_nil_iff (s : State) : framesIn (scan s).2.acc = [] ↔ (scan s).1 ≠ .outFull := by
  obtain ⟨hnone, hwait, hfull⟩ := stopCodesDescribeTheState s
  cases hcode : (scan s).1 with
  | noMarker => simp [framesIn_of_no_marker (hnone hcode).1]
  | waitBytes => simp [framesIn_of_short (Nat.lt_succ_of_le (hwait hcode).2.2)]
  | outFull =>
    obtain ⟨_, ⟨f, hf, hvalid⟩, _⟩ := hfull hcode
    rw [← List.take_append_drop 64 (scan s).2.acc, ← hf, framesIn_frame_append _ hvalid]
    simp

/-- `scan` emits the frames of the accumulator, unless it stops for a full queue. -/
theorem scan_outq_of_ne_outFull {s : State} (h : (scan s).1 ≠ .outFull) :
    (scan s).2.outq = s.outq ++ framesIn s.acc := by
  have hkeeps : framesWith [] (scan s).2 = framesWith [] s := scan_framesWith (.inl rfl)
  simpa [framesWith, (framesIn_scan_eq_nil_iff s).2 h] using hkeeps

/-! ## The frames that commands emit in total -/

/-- One command, then the rest. -/
theorem framesEmitted_cons_of_next {i : Instr} {is : List Instr} {s t : State} (h : exec i s = .next t) :
    framesEmitted (i :: is) s =
      (if i = .syncScan then t.outq.drop s.outq.length else []) ++ framesEmitted is t := by
  rw [framesEmitted, h]

/-- The bytes of one command, then those of the rest. -/
theorem bytesPushed_cons (i : Instr) (is : List Instr) : bytesPushed (i :: is) = bytesPushed [i] ++ bytesPushed is := by
  cases i <;> rfl

/-- The bytes of one sequence, then those of another. -/
theorem bytesPushed_append (is js : List Instr) : bytesPushed (is ++ js) = bytesPushed is ++ bytesPushed js := by
  induction is with
  | nil => rfl
  | cons i is ih => rw [List.cons_append, bytesPushed_cons, ih, bytesPushed_cons i is, List.append_assoc]

/-- Commands whose scans are safe start with commands whose scans are. -/
theorem cutsAreSafe_of_append {is js : List Instr} {s : State} (h : CutsAreSafe (is ++ js) s) : CutsAreSafe is s := by
  induction is generalizing s with
  | nil => trivial
  | cons i is ih =>
    obtain ⟨hi, hrest⟩ := h
    exact ⟨hi, fun t ht => ih (hrest t ht)⟩

/-- Pushes alone cut nowhere. -/
theorem cutsAreSafe_pushes (bs : List Byte) (s : State) : CutsAreSafe (bs.map .syncPush) s := by
  induction bs generalizing s with
  | nil => trivial
  | cons b bs ih => exact ⟨nofun, fun t _ => ih t⟩

/-- One command: the frames it emits and those of the bytes it leaves, with `b` still to come, are the frames of the
bytes it finds, those it pushes and `b`. -/
theorem exec_framesIn {i : Instr} {s t : State} {b : List Byte} (hclr : i ≠ .syncClr) (hreset : i ≠ .reset)
    (hroom : (∃ x, i = .syncPush x) → accFull s = false)
    (hsafe : i = .syncScan → b = [] ∨ LosesNoMarkerBeginning s) (h : exec i s = .next t) :
    (if i = .syncScan then t.outq.drop s.outq.length else []) ++ framesIn (t.acc ++ b) =
      framesIn (s.acc ++ (bytesPushed [i] ++ b)) := by
  by_cases hpush : ∃ x, i = .syncPush x
  · obtain ⟨x, rfl⟩ := hpush
    cases h.symm.trans (exec_syncPush_of_room x (hroom ⟨x, rfl⟩))
    simp [bytesPushed]
  · have hnone : bytesPushed [i] = [] := by
      cases i with
      | syncPush x => exact absurd ⟨x, rfl⟩ hpush
      | _ => rfl
    rw [hnone, List.nil_append]
    by_cases hscan : i = .syncScan
    · subst hscan
      cases h
      obtain ⟨emitted, he⟩ := scan_outq_prefix s
      have hkeeps := scan_framesWith (hsafe rfl)
      rw [framesWith, framesWith, ← he, List.append_assoc, List.append_cancel_left_eq] at hkeeps
      simp only [if_true, respond_outq, respond_acc, ← he, List.drop_left]
      exact hkeeps
    · have hacc : t.acc = s.acc := by
        obtain ⟨_, _, _, hwrites, _⟩ := onlyTheListedCommandsWrite i s t h
        by_contra hne
        rcases hwrites hne with hi | hi | hi | hi
        exacts [hpush hi, hscan hi, hclr hi, hreset hi]
      rw [if_neg hscan, List.nil_append, hacc]

/-- Commands with a scan at their end emit the frames of their stream, by induction on the commands: only at the scan at
the end may the beginning of a marker be lost, since no byte comes after it (R68). -/
theorem framesEmitted_concat_scan {is : List Instr} {s : State} (his : ∀ i ∈ is, i ≠ .syncClr ∧ i ≠ .reset)
    (hcap : ReachesNoCapacity (is ++ [.syncScan]) s) (hsafe : CutsAreSafe is s) :
    framesEmitted (is ++ [.syncScan]) s = framesIn (s.acc ++ bytesPushed is) := by
  induction is generalizing s with
  | nil =>
    have hfull : (scan s).1 ≠ .outFull := ((reachesNoCapacity_scan_iff [] s).1 hcap).1
    rw [List.nil_append, framesEmitted_cons_of_next (t := respond false (scan s).1.number (scan s).2) rfl, if_pos rfl,
      respond_outq, scan_outq_of_ne_outFull hfull, List.drop_left]
    simp [framesEmitted, bytesPushed]
  | cons i is ih =>
    obtain ⟨⟨hclr, hreset⟩, hrest⟩ := List.forall_mem_cons.1 his
    obtain ⟨hroom, _, hcaps⟩ := hcap
    obtain ⟨hcut, hcuts⟩ := hsafe
    obtain ⟨t, ht⟩ := exec_total i s
    rw [List.cons_append, framesEmitted_cons_of_next ht, ih hrest (hcaps t ht) (hcuts t ht), bytesPushed_cons]
    exact exec_framesIn hclr hreset hroom (fun hi => .inr (hcut hi)) ht

/-- A delivery that reaches no capacity emits the frames of the accumulator with it at its end. -/
theorem framesEmitted_syncFeed {bs : List Byte} {s : State} (hcap : ReachesNoCapacity (syncFeed bs) s) :
    framesEmitted (syncFeed bs) s = framesIn (s.acc ++ bs) := by
  have hpushes : bytesPushed (bs.map .syncPush) = bs := by
    simpa [syncFeed, bytesPushed_append, bytesPushed] using bytesPushed_syncFeed_append bs []
  rw [syncFeed, framesEmitted_concat_scan ?_ hcap (cutsAreSafe_pushes bs s), hpushes]
  intro i hi
  obtain ⟨b, _, rfl⟩ := List.mem_map.1 hi
  exact ⟨nofun, nofun⟩

/-- A block without bounds reaches no capacity. -/
theorem reachesNoCapacity_unbounded (bs : List Byte) {s : State} (h : s.caps = Capacities.unbounded) :
    ReachesNoCapacity (syncFeed bs) s := by
  refine reachesNoCapacity_of_room (fun i hi => ?_) ?_ ?_
  · exact push_or_scan_of_mem_syncFeed (ds := [bs]) (by simpa using hi)
  · rw [h]
    rfl
  · rw [h]
    rfl

/-- Settles O58: both sides are the frames of the stream. -/
theorem safeScansAtAnyPlacesEmitTheSameFrames : Obligations.SafeScansAtAnyPlacesEmitTheSameFrames := by
  intro is s _ his hcap hsafe
  rw [framesEmitted_concat_scan his hcap (cutsAreSafe_of_append hsafe)]
  refine ⟨?_, fun hwhole => (framesEmitted_syncFeed hwhole).symm⟩
  rw [framesEmitted_syncFeed (reachesNoCapacity_unbounded _ rfl)]

/-! ## Deliveries, and the queue they leave -/

/-- An iteration of `scan` leaves the queue as it is, or adds one frame to a queue that is not full (R58). -/
theorem scanPass_outq_cases (s : State) :
    (scanPass s).state.outq = s.outq ∨
      (s.caps.outqCap ≠ .finite s.outq.length ∧ ∃ f, (scanPass s).state.outq = s.outq ++ [f]) := by
  have hfull (p : Nat) : outqFull (resync p s) = outqFull s := by
    rcases resync_cases p s with ⟨_, e⟩ | ⟨_, e⟩ <;> rw [e]
    rfl
  rcases scanPass_cases s with
    ⟨_, e⟩ | ⟨p, _, ⟨_, e⟩ | ⟨cand, _, _, _, ⟨_, e⟩ | ⟨_, _, e⟩ | ⟨_, hroom, e⟩⟩⟩ <;> rw [e]
  · rcases noMarkerDiscard_cases s with ⟨_, d⟩ | ⟨_, _, d⟩ | ⟨_, d⟩ <;> rw [d] <;> exact .inl rfl
  · exact .inl (resync_outq p s)
  · exact .inl (resync_outq p s)
  · exact .inl (resync_outq p s)
  · rw [hfull, ← Bool.not_eq_true, outqFull_iff] at hroom
    exact .inr ⟨hroom, cand, congrArg (· ++ [cand]) (resync_outq p s)⟩

/-- From `s` to `t` the queue has grown, one frame at a time and never from a full queue: no length that it grew
beyond is its capacity. -/
def GrewWithinCapacity (s t : State) : Prop :=
  t.caps = s.caps ∧ ∀ n, s.outq.length ≤ n → n < t.outq.length → s.caps.outqCap ≠ .finite n

/-- A queue that stayed the same. -/
theorem grewWithinCapacity_of_outq_eq {s t : State} (hc : t.caps = s.caps) (hq : t.outq = s.outq) :
    GrewWithinCapacity s t :=
  ⟨hc, fun n hle hlt => absurd hle (by rw [hq] at hlt; omega)⟩

/-- A queue that grew so twice. -/
theorem grewWithinCapacity_trans {s t u : State} (hst : GrewWithinCapacity s t) (htu : GrewWithinCapacity t u) :
    GrewWithinCapacity s u := by
  obtain ⟨hct, ht⟩ := hst
  obtain ⟨hcu, hu⟩ := htu
  refine ⟨hcu.trans hct, fun n hle hlt => ?_⟩
  by_cases hn : n < t.outq.length
  · exact ht n hle hn
  · exact hct ▸ hu n (by omega) hlt

/-- `scan` lets it grow so. -/
theorem scan_grewWithinCapacity (s : State) : GrewWithinCapacity s (scan s).2 := by
  refine scan_keeps_of_scanPass (P := GrewWithinCapacity s) (fun u hu => grewWithinCapacity_trans hu ?_)
    (grewWithinCapacity_of_outq_eq rfl rfl)
  have hcaps : (scanPass u).state.caps = u.caps := by rw [scanPass_frame]
  rcases scanPass_outq_cases u with hq | ⟨hroom, f, hq⟩
  · exact grewWithinCapacity_of_outq_eq hcaps hq
  · refine ⟨hcaps, fun n hle hlt => ?_⟩
    rw [hq, List.length_append, List.length_singleton] at hlt
    obtain rfl : n = u.outq.length := by omega
    exact hroom

/-- Pushes and scans leave in the queue, after the frames it held, those that they emit. -/
theorem execAll_queue {is : List Instr} {s t : State} (his : ∀ i ∈ is, (∃ b, i = .syncPush b) ∨ i = .syncScan)
    (h : execAll is s = .next t) : t.outq = s.outq ++ framesEmitted is s ∧ GrewWithinCapacity s t := by
  induction is generalizing s with
  | nil =>
    cases h
    exact ⟨by simp [framesEmitted], grewWithinCapacity_of_outq_eq rfl rfl⟩
  | cons i is ih =>
    obtain ⟨hi, hrest⟩ := List.forall_mem_cons.1 his
    obtain ⟨u, hu⟩ := exec_total i s
    rw [execAll_cons_of_next hu] at h
    obtain ⟨hq, hgrew⟩ := ih hrest h
    rw [hq, framesEmitted_cons_of_next hu, ← List.append_assoc]
    rcases hi with ⟨b, rfl⟩ | rfl
    · obtain ⟨hcaps, _, _, _, hwrites, _⟩ := onlyTheListedCommandsWrite _ s u hu
      have hsame : u.outq = s.outq := by
        by_contra hne
        exact absurd (hwrites hne) (by simp)
      exact ⟨by simp [hsame], grewWithinCapacity_trans (grewWithinCapacity_of_outq_eq hcaps hsame) hgrew⟩
    · cases hu
      obtain ⟨emitted, he⟩ := scan_outq_prefix s
      refine ⟨by simp [← he], grewWithinCapacity_trans ?_ hgrew⟩
      exact scan_grewWithinCapacity s

/-- Deliveries whose cuts are safe and that reach no capacity emit the frames of their stream. -/
theorem framesEmitted_deliveries {ds : List (List Byte)} {s : State} (hnil : s.acc = [])
    (hcap : ReachesNoCapacity (ds.flatMap syncFeed) s) (hsafe : CutsAreSafe (ds.flatMap syncFeed) s) :
    framesEmitted (ds.flatMap syncFeed) s = framesIn ds.flatten := by
  rw [← bytesPushed_flatMap_syncFeed]
  have hmem (i : Instr) (hi : i ∈ ds.flatMap syncFeed) := push_or_scan_of_mem_syncFeed hi
  rcases List.eq_nil_or_concat ds with rfl | ⟨ds', d, rfl⟩
  · simp [framesEmitted, bytesPushed, framesIn]
  · have hlast : (ds'.concat d).flatMap syncFeed = (ds'.flatMap syncFeed ++ d.map .syncPush) ++ [.syncScan] := by
      simp [syncFeed]
    rw [hlast] at hcap hsafe hmem ⊢
    rw [framesEmitted_concat_scan (fun i hi => ?_) hcap (cutsAreSafe_of_append hsafe), hnil, List.nil_append,
      bytesPushed_append _ [.syncScan]]
    · simp [bytesPushed]
    · rcases hmem i (List.mem_append_left _ hi) with ⟨b, rfl⟩ | rfl
      · exact ⟨nofun, nofun⟩
      · exact ⟨nofun, nofun⟩

/-- A delivery that reaches no capacity leaves in the queue the frames of its bytes. -/
theorem execAll_syncFeed_outq {bs : List Byte} {s : State} (hnil : s.acc = [])
    (hcap : ReachesNoCapacity (syncFeed bs) s) :
    ∃ u, execAll (syncFeed bs) s = .next u ∧ u.outq = s.outq ++ framesIn bs := by
  obtain ⟨u, hu⟩ := execAll_total (syncFeed bs) s
  have hmem (i : Instr) (hi : i ∈ syncFeed bs) := push_or_scan_of_mem_syncFeed (ds := [bs]) (by simpa using hi)
  refine ⟨u, hu, ?_⟩
  rw [(execAll_queue hmem hu).1, framesEmitted_syncFeed hcap, hnil, List.nil_append]

/-- A delivery reaches no capacity when the accumulator has room for its bytes and its scan does not stop for a full
queue. -/
theorem reachesNoCapacity_syncFeed {bs : List Byte} {s : State} (hroom : RoomFor bs.length s)
    (hfull : (scan (afterPushes bs s)).1 ≠ .outFull) : ReachesNoCapacity (syncFeed bs) s := by
  induction bs generalizing s with
  | nil =>
    have hnone : afterPushes [] s = s := by simp [afterPushes]
    exact (reachesNoCapacity_scan_iff [] s).2 ⟨hnone ▸ hfull, trivial⟩
  | cons b bs ih =>
    obtain ⟨hb, hbs⟩ := roomFor_succ b hroom
    exact (reachesNoCapacity_push_iff b (syncFeed bs) s).2 ⟨hb, ih hbs (afterPushes_cons b bs s ▸ hfull)⟩

/-- A scan does not stop for a full queue when the queue has once grown, within its capacity, by all the frames of the
accumulator: it would stop at a length below the one reached. -/
theorem scan_ne_outFull_of_grew {s t w : State} (hgrew : GrewWithinCapacity s t)
    (ht : t.outq = s.outq ++ framesIn w.acc) (hq : w.outq = s.outq) (hc : w.caps = s.caps) :
    (scan w).1 ≠ .outFull := by
  intro hfull
  have hkeeps : framesWith [] (scan w).2 = t.outq := by
    rw [scan_framesWith (.inl rfl), framesWith, List.append_nil, hq, ht]
  have hheld : framesIn (scan w).2.acc ≠ [] := fun hnil => (framesIn_scan_eq_nil_iff w).1 hnil hfull
  have hcap : s.caps.outqCap = .finite (scan w).2.outq.length := by
    rw [← hc, ← scan_caps w, ← outqFull_iff]
    exact (scan_outFull hfull).1
  have hle : s.outq.length ≤ (scan w).2.outq.length := hq ▸ (scan_outq_prefix w).length_le
  have hlt : (scan w).2.outq.length < t.outq.length := by
    have hpos := List.length_pos_iff.2 hheld
    rw [← hkeeps, framesWith, List.append_nil, List.length_append]
    omega
  exact hgrew.2 _ hle hlt hcap

/-- Settles O36: the pieces and the whole leave in the queue the frames of the stream; on the same block the whole finds
room for them because the pieces did. -/
theorem safeCutsEmitTheSameFrames : Obligations.SafeCutsEmitTheSameFrames := by
  intro ds s hnil hcap hsafe
  obtain ⟨t, ht⟩ := execAll_total (ds.flatMap syncFeed) s
  obtain ⟨hq, hgrew⟩ := execAll_queue (fun _ => push_or_scan_of_mem_syncFeed) ht
  rw [framesEmitted_deliveries hnil hcap hsafe] at hq
  refine ⟨t, ht, ?_, fun hfits => ?_⟩
  · obtain ⟨u, hu, hqu⟩ := execAll_syncFeed_outq (s := { s with caps := Capacities.unbounded }) hnil
      (reachesNoCapacity_unbounded ds.flatten rfl)
    exact ⟨u, hu, hq.trans hqu.symm⟩
  · have hroom : RoomFor ds.flatten.length s := roomFor_of_capAllows (by simpa [hnil] using hfits)
    have hfull : (scan (afterPushes ds.flatten s)).1 ≠ .outFull :=
      scan_ne_outFull_of_grew hgrew (by simpa [afterPushes, hnil] using hq) rfl rfl
    obtain ⟨u, hu, hqu⟩ := execAll_syncFeed_outq hnil (reachesNoCapacity_syncFeed hroom hfull)
    exact ⟨u, hu, hq.trans hqu.symm⟩

end Sys2Proof.Machine
end

section
/-! PROOFS. The statements of 42_system.md: `RDSR` (O46), `CLRF` (O47) and `RESET` (O48). -/

namespace Sys2Proof.Machine

/-! ## The status register bit by bit -/

/-- `zext_16` keeps every bit, also those above the byte, which are 0 on both sides (30_encoding.md R40). -/
theorem getLsbD_zext16 (b : Byte) (i : Nat) : (zext16 b).getLsbD i = b.getLsbD i := by
  rw [zext16, BitVec.getLsbD_setWidth]
  rcases Nat.lt_or_ge i 16 with hi | hi
  · rw [decide_eq_true hi, Bool.true_and]
  · rw [BitVec.getLsbD_of_ge b i (by omega), Bool.and_false]

/-- The mask 0xF0 of `CLRF` has bits 4 to 7. -/
theorem getLsbD_eventMask {i : Nat} (hi : i < 8) : (0xF0 : Byte).getLsbD i = decide (4 ≤ i) := by
  interval_cases i <;> rfl

/-- Clearing the events clears bits 0 to 3 and keeps the others (42_system.md R70). -/
theorem getLsbD_srClearEvents (sr : Byte) (i : Nat) :
    (srClearEvents sr).getLsbD i = (sr.getLsbD i && decide (4 ≤ i)) := by
  rw [srClearEvents, BitVec.getLsbD_and]
  rcases Nat.lt_or_ge i 8 with hi | hi
  · rw [getLsbD_eventMask hi]
  · rw [BitVec.getLsbD_of_ge sr i hi, Bool.false_and, Bool.false_and]

/-! ## The three commands -/

/-- Settles O46: the response is `SR` zero-extended, bit for bit; R67 (d) and (e) give the corner case. -/
theorem rdsrReadsTheStatus : Obligations.RdsrReadsTheStatus := by
  refine ⟨isTheOnlyWordOf_pattern (i := .rdsr) (by decide), fun s => ?_⟩
  refine ⟨zext16 s.sr, rfl, ?_, fun i hi => ?_, fun h => ?_⟩
  · simp only [getLsbD_zext16, srHas, srReserved, Flag.bit, and_self]
  · exact (getLsbD_zext16 s.sr i).trans (BitVec.getLsbD_of_ge s.sr i hi)
  · exact ⟨(getLsbD_zext16 s.sr 3).trans h.badmark, (getLsbD_zext16 s.sr 7).trans h.reserved⟩

/-- Settles O47: `SR` and 0xF0, bit for bit. -/
theorem clrfClearsTheEventFlags : Obligations.ClrfClearsTheEventFlags := by
  refine ⟨isTheOnlyWordOf_pattern (i := .clrf) (by decide), fun s => ?_⟩
  refine ⟨srClearEvents s.sr, rfl, fun i hi => ?_, fun i hi => ?_⟩
  · rw [getLsbD_srClearEvents, decide_eq_false (Nat.not_le.2 hi), Bool.and_false]
  · rw [getLsbD_srClearEvents, decide_eq_true hi, Bool.and_true]

/-- Settles O48: 0xFF00 is the match of the row, and R71's four writes are the values of R16. -/
theorem resetCommandPutsTheResetState : Obligations.ResetCommandPutsTheResetState :=
  ⟨isTheOnlyWordOf_pattern (i := .reset) (by decide), fun _ => rfl⟩

end Sys2Proof.Machine
end

section
/-! PROOFS. The statement of 60_exceptions.md: faults are precise (O53). -/

namespace Sys2Proof.Machine

/-- The table of R72: the code of each fault, and the mask of the `SR` bit it sets. -/
theorem blockFault_table (f : BlockFault) :
    (f.code = 1 ∧ 1#8 <<< f.flag.bit = 0x20#8) ∨ (f.code = 2 ∧ 1#8 <<< f.flag.bit = 0x10#8) ∨
      (f.code = 3 ∧ 1#8 <<< f.flag.bit = 0x40#8) := by
  cases f with
  | illegalCommand => exact .inl ⟨rfl, rfl⟩
  | accOverflow => exact .inr (.inl ⟨rfl, rfl⟩)
  | queueEmpty => exact .inr (.inr ⟨rfl, rfl⟩)

/-- Settles O53: an idle step adds no response and a command without a fault answers `err = 0`, so the step raised a
fault, and `raise` writes that fault's bit and response only. -/
theorem faultsArePrecise : Obligations.FaultsArePrecise := by
  intro s t cmd rest d hcmd hstep hresp
  rcases step_cases hstep with rfl | ⟨cmd', rest', hcmd', ⟨f, rfl⟩ | ⟨i, d', -, rfl⟩⟩
  · exact nomatch List.self_eq_append_right.1 hresp
  · obtain ⟨rfl, rfl⟩ := List.cons.inj (hcmd.symm.trans hcmd')
    obtain rfl : f.code = d := by simpa using hresp
    exact ⟨1#8 <<< f.flag.bit, blockFault_table f, rfl⟩
  · simp at hresp

end Sys2Proof.Machine
end

section
/-! PROOFS. The statements of 70_reset_and_hazards.md: the forgotten `CRC.INIT` (O17), what a scan leaves (O33), the wear
of marker-less noise (O34), and scanning after every byte (O35). -/

namespace Sys2Proof.Machine

/-! ## The forgotten `CRC.INIT` -/

/-- The bytes of a message, then those of the commands after it. -/
theorem crcBytesGiven_map_crcUpd_append (bs : List Byte) (is : List Instr) :
    crcBytesGiven (bs.map .crcUpd ++ is) = bs ++ crcBytesGiven is := by
  induction bs with
  | nil => rfl
  | cons b bs ih => exact congrArg (b :: ·) ih

/-- Two messages with nothing between them but the `CRC.RD` of the first. -/
def joinedUpdates (a b : List Byte) : List Instr := a.map .crcUpd ++ .crcRd :: b.map .crcUpd

/-- They give the bytes of both. -/
theorem crcBytesGiven_joinedUpdates (a b : List Byte) : crcBytesGiven (joinedUpdates a b) = a ++ b := by
  have hb : crcBytesGiven (b.map .crcUpd) = b := by simpa [crcBytesGiven] using crcBytesGiven_map_crcUpd_append b []
  rw [joinedUpdates, crcBytesGiven_map_crcUpd_append, crcBytesGiven_cons_of_ne (i := .crcRd) nofun, hb]

/-- No `CRC.INIT` and no `RESET` is among them. -/
theorem ne_of_mem_joinedUpdates {a b : List Byte} : ∀ i ∈ joinedUpdates a b, i ≠ .crcInit ∧ i ≠ .reset := by
  intro i hi
  simp only [joinedUpdates, List.mem_append, List.mem_cons, List.mem_map] at hi
  rcases hi with ⟨_, _, rfl⟩ | rfl | ⟨_, _, rfl⟩ <;> exact ⟨nofun, nofun⟩

/-- Settles O17: the `CRC.RD` of the first message is one of the commands that may stand between the bytes of one
checksum (R49). -/
theorem forgottenCrcInitJoinsTheMessages : Obligations.ForgottenCrcInitJoinsTheMessages := by
  intro a b s
  obtain ⟨t, hrun, -, hread⟩ := (crcCommandsComputeTheChecksum _ s (ne_of_mem_joinedUpdates (a := a) (b := b))).1
  have hsplit : crcMsg a ++ (b.map .crcUpd ++ [.crcRd]) = (.crcInit :: joinedUpdates a b) ++ [.crcRd] := by
    simp [crcMsg, joinedUpdates]
  rw [hsplit, execAll_append_of_next hrun, execAll_cons_of_next hread, crcBytesGiven_joinedUpdates]
  exact ⟨_, rfl, by simp⟩

/-! ## A scan without a marker -/

/-- How many of `n` bytes path A keeps (41_sync.md R53). -/
def bytesKept (n : Nat) : Nat := if n ≤ 64 then 0 else n - 10

/-- Path A keeps that many. -/
theorem noMarkerDiscard_length (s : State) : (noMarkerDiscard s).acc.length = bytesKept s.acc.length := by
  unfold bytesKept
  rcases noMarkerDiscard_cases s with ⟨hnil, e⟩ | ⟨_, hle, e⟩ | ⟨hlt, e⟩ <;> rw [e]
  · simp [hnil]
  · simp [hle]
  · simp [Nat.not_le.2 hlt]

/-- Path A emits nothing. -/
theorem noMarkerDiscard_outq (s : State) : (noMarkerDiscard s).outq = s.outq := by
  rcases noMarkerDiscard_cases s with ⟨_, e⟩ | ⟨_, _, e⟩ | ⟨_, e⟩ <;> rw [e] <;> rfl

/-- `SYNC.SCAN` without a marker is path A, once: it makes no marker and emits nothing (41_sync.md R53, R61). -/
theorem exec_syncScan_of_no_marker {s : State} (h : findMarker s.acc = none) :
    ∃ t, exec .syncScan s = .next t ∧ findMarker t.acc = none ∧ t.acc.length = bytesKept s.acc.length ∧
      t.outq = s.outq := by
  have hscan : scan s = (.noMarker, noMarkerDiscard s) := scan_of_stop (by rw [scanPass, h])
  refine ⟨respond false 0 (noMarkerDiscard s), ?_, (noMarkerDiscard_leaves h).1, noMarkerDiscard_length s,
    noMarkerDiscard_outq s⟩
  rw [exec, execSyncScan, hscan]
  rfl

/-! ## What a scan leaves -/

/-- The bound of R89 on the iteration that returns. -/
theorem scanPass_stop_bounded {s t : State} {code : StopCode} (h : scanPass s = .stop code t) (hcode : code ≠ .outFull) :
    t.acc.length ≤ max 63 (s.acc.length - 10) := by
  rcases scanPass_cases s with
    ⟨_, e⟩ | ⟨p, _, ⟨hlt, e⟩ | ⟨_, _, _, _, ⟨_, e⟩ | ⟨_, _, e⟩ | ⟨_, _, e⟩⟩⟩ <;> cases h.symm.trans e
  · rw [noMarkerDiscard_length, bytesKept]
    split <;> omega
  · rw [resync_acc, List.length_drop]
    omega
  · exact absurd rfl hcode

/-- Settles O33: the iterations before the one that returns only shorten the accumulator. -/
theorem scanLeavesABoundedAccumulator : Obligations.ScanLeavesABoundedAccumulator := by
  intro s
  refine scan_induction (motive := fun s r => r.1 ≠ .outFull → r.2.acc.length ≤ max 63 (s.acc.length - 10))
    (fun _ _ _ => scanPass_stop_bounded) (fun u t h ih hcode => ?_) s
  have hshorter := scanPass_again_shorter h
  rw [scan_of_again h] at hcode ⊢
  have hbound := ih hcode
  omega

/-! ## Noise worn down -/

/-- The number of scans that empty a marker-less accumulator of `n` bytes: none when there is none, else one for each 10
bytes begun above 64, and a last one (R89). -/
def scansToEmpty (n : Nat) : Nat := if n = 0 then 0 else (n - 64 + 9) / 10 + 1

theorem scansToEmpty_eq_zero {n : Nat} : scansToEmpty n = 0 ↔ n = 0 := by
  unfold scansToEmpty
  split <;> omega

/-- Each scan is one of them. -/
theorem scansToEmpty_bytesKept (n : Nat) : scansToEmpty (bytesKept n) = scansToEmpty n - 1 := by
  unfold scansToEmpty bytesKept
  split_ifs <;> omega

/-- A marker-less accumulator is empty after that many scans and no sooner. -/
theorem execAll_scans_of_no_marker (k : Nat) {s : State} (hnone : findMarker s.acc = none) :
    ∃ t, execAll (List.replicate k .syncScan) s = .next t ∧ (t.acc = [] ↔ scansToEmpty s.acc.length ≤ k) := by
  induction k generalizing s with
  | zero => exact ⟨s, rfl, by rw [Nat.le_zero, scansToEmpty_eq_zero, List.length_eq_zero_iff]⟩
  | succ k ih =>
    obtain ⟨u, hscan, hu, hlen, -⟩ := exec_syncScan_of_no_marker hnone
    obtain ⟨t, hrest, hiff⟩ := ih hu
    rw [hlen, scansToEmpty_bytesKept, tsub_le_iff_right] at hiff
    exact ⟨t, by rw [List.replicate_succ, execAll_cons_of_next hscan, hrest], hiff⟩

/-- Settles O34: `scansToEmpty` is R89's count above 64 bytes. -/
theorem noiseIsWornDownTenBytesAScan : Obligations.NoiseIsWornDownTenBytesAScan := by
  intro s k hnone hlt
  have hcount : scansToEmpty s.acc.length = (s.acc.length - 64 + 9) / 10 + 1 := if_neg (by omega)
  rw [← hcount]
  exact execAll_scans_of_no_marker k hnone

/-! ## Scanning after every byte -/

/-- One byte delivered to an empty accumulator is discarded: it is no marker (R87). -/
theorem execAll_syncFeed_byte (b : Byte) {s : State} (h : s.acc = []) :
    ∃ t, execAll (syncFeed [b]) s = .next t ∧ t.acc = [] ∧ t.outq = s.outq := by
  have hroom : RoomFor [b].length s := roomFor_of_capAllows (capAllows_above _ (by simp [h]))
  have hacc : (afterPushes [b] s).acc = [b] := by simp [afterPushes, h]
  have hnone : findMarker (afterPushes [b] s).acc = none := by
    rw [hacc, findMarker_eq_none]
    rintro p ⟨hlen, -⟩
    simp at hlen
  obtain ⟨t, hscan, -, hlen, hq⟩ := exec_syncScan_of_no_marker hnone
  rw [hacc] at hlen
  exact ⟨t, (execAll_syncFeed hroom).trans hscan, List.length_eq_zero_iff.1 hlen, hq⟩

/-- Settles O35: each byte finds the accumulator empty and leaves it so. -/
theorem scanningEveryByteEmitsNothing : Obligations.ScanningEveryByteEmitsNothing := by
  intro bs
  induction bs with
  | nil => exact fun s h => ⟨s, rfl, h, rfl⟩
  | cons b bs ih =>
    intro s h
    obtain ⟨u, hfeed, hnil, hu⟩ := execAll_syncFeed_byte b h
    obtain ⟨t, hrest, hempty, ht⟩ := ih u hnil
    exact ⟨t, by rw [List.flatMap_cons, execAll_append_of_next hfeed, hrest], hempty, ht.trans hu⟩

end Sys2Proof.Machine
end

section
/-! PROOFS. The step with no command presented (O7). -/

namespace Sys2Proof.Machine

/-- Settles O7: with no word to take, the port answers the state it was given (the model's choice, log entry 1). -/
theorem idleStepChangesNothing : Obligations.IdleStepChangesNothing := by
  intro s hempty
  exact step_idle hempty

end Sys2Proof.Machine
end
